-- ==== Sys2Proof/Word.lean ====
section
/-! DEFINITION. The words of the machine: R7 (`GPRLEN = 32`), R21, R41, R62. -/

namespace Sys2Proof

/-- A 32-bit vector: a general register, HI, LO, the pc, an address, a memory word, an instruction
word (R7, R21, R26, R40, R60). -/
abbrev Word := BitVec 32

/-- The smallest addressable unit of memory (R41). -/
abbrev Byte := BitVec 8

/-- A register number, 0 to 31: the 5-bit fields `rs`, `rt`, `rd`, `base` (R20, R62, R72). -/
abbrev RegNum := BitVec 5

end Sys2Proof
end

