-- ==== Sys2Proof/Machine/Flags.lean ====
section
/-! DEFINITION. The machine has no status flags or condition codes (R25). The conditions its instructions
compute in their place: overflow (R100), signed comparison (R104) and the branch conditions (R125 to
R128). -/

namespace Sys2Proof.Machine

open Sys2Proof

/-- `temp[32] != temp[31]`: the 33-bit result is not representable in 32 bits (R100). -/
def overflows (temp : BitVec 33) : Bool := temp.getLsbD 32 != temp.getLsbD 31

/-- `signed(a) < signed(b)` (R16, R104). -/
def signedLess (a b : Word) : Bool := decide (a.toInt < b.toInt)

/-- `signed(a) > 0` (R126). -/
def positive (a : Word) : Bool := decide (0 < a.toInt)

/-- `signed(a) <= 0` (R127). -/
def nonPositive (a : Word) : Bool := decide (a.toInt ≤ 0)

/-- `a = b` on all 32 bits (R125, R128). -/
def equal (a b : Word) : Bool := a == b

end Sys2Proof.Machine
end

