-- ==== Sys2Proof/Syntax.lean ====
section
/-! DEFINITION. The instructions: one constructor per row of spec/opcode_table.json, operands in the
order of the Format lines (R85). -/

namespace Sys2Proof

/-- The 25 machine instructions of R1, and the idioms NOP and SSNOP, which are rows of the table. -/
inductive Instr where
  /-- `ADD rd, rs, rt` (R101). -/
  | add (rd rs rt : RegNum)
  /-- `ADDI rt, rs, immediate` (R102). -/
  | addi (rt rs : RegNum) (immediate : BitVec 16)
  /-- `AND rd, rs, rt` (R111). -/
  | and (rd rs rt : RegNum)
  /-- `BEQ rs, rt, offset` (R125). -/
  | beq (rs rt : RegNum) (offset : BitVec 16)
  /-- `BGTZ rs, offset` (R126). -/
  | bgtz (rs : RegNum) (offset : BitVec 16)
  /-- `BLEZ rs, offset` (R127). -/
  | blez (rs : RegNum) (offset : BitVec 16)
  /-- `BNE rs, rt, offset` (R128). -/
  | bne (rs rt : RegNum) (offset : BitVec 16)
  /-- `DIV rs, rt` (R130, R131). -/
  | div (rs rt : RegNum)
  /-- `J target` (R140). -/
  | j (instrIndex : BitVec 26)
  /-- `JAL target` (R141). -/
  | jal (instrIndex : BitVec 26)
  /-- `JR rs` (R142); its `hint` field is 0, the only value admitted (R80, log 18). -/
  | jr (rs : RegNum)
  /-- `LUI rt, immediate` (R103). -/
  | lui (rt : RegNum) (immediate : BitVec 16)
  /-- `LW rt, offset(base)` (R152). -/
  | lw (rt : RegNum) (offset : BitVec 16) (base : RegNum)
  /-- `MFHI rd` (R132). -/
  | mfhi (rd : RegNum)
  /-- `MFLO rd` (R133). -/
  | mflo (rd : RegNum)
  /-- `MULT rs, rt` (R134). -/
  | mult (rs rt : RegNum)
  /-- `OR rd, rs, rt` (R112). -/
  | or (rd rs rt : RegNum)
  /-- `ROTR rd, rt, sa` (R162). -/
  | rotr (rd rt : RegNum) (sa : BitVec 5)
  /-- `SLL rd, rt, sa` (R163). -/
  | sll (rd rt : RegNum) (sa : BitVec 5)
  /-- `SLT rd, rs, rt` (R104). -/
  | slt (rd rs rt : RegNum)
  /-- `SRL rd, rt, sa` (R164). -/
  | srl (rd rt : RegNum) (sa : BitVec 5)
  /-- `SUB rd, rs, rt` (R105). -/
  | sub (rd rs rt : RegNum)
  /-- `SW rt, offset(base)` (R153). -/
  | sw (rt : RegNum) (offset : BitVec 16) (base : RegNum)
  /-- `SYSCALL`; the word carries a 20-bit `code` that the hardware ignores (R72, R170). -/
  | syscall (code : BitVec 20)
  /-- `XOR rd, rs, rt` (R113). -/
  | xor (rd rs rt : RegNum)
  /-- The idiom `NOP`, that is `SLL r0, r0, 0` (R160). -/
  | nop
  /-- The idiom `SSNOP`, that is `SLL r0, r0, 1` (R161). -/
  | ssnop
deriving DecidableEq, Repr

/-- The idiom `B offset`: another spelling of `BEQ r0, r0, offset`, with no row of its own (R86, R129). -/
abbrev Instr.b (offset : BitVec 16) : Instr := .beq 0 0 offset

/-- The mnemonic of the instruction's row in spec/opcode_table.json. -/
def Instr.mnemonic : Instr → String
  | .add _ _ _ => "ADD"
  | .addi _ _ _ => "ADDI"
  | .and _ _ _ => "AND"
  | .beq _ _ _ => "BEQ"
  | .bgtz _ _ => "BGTZ"
  | .blez _ _ => "BLEZ"
  | .bne _ _ _ => "BNE"
  | .div _ _ => "DIV"
  | .j _ => "J"
  | .jal _ => "JAL"
  | .jr _ => "JR"
  | .lui _ _ => "LUI"
  | .lw _ _ _ => "LW"
  | .mfhi _ => "MFHI"
  | .mflo _ => "MFLO"
  | .mult _ _ => "MULT"
  | .or _ _ _ => "OR"
  | .rotr _ _ _ => "ROTR"
  | .sll _ _ _ => "SLL"
  | .slt _ _ _ => "SLT"
  | .srl _ _ _ => "SRL"
  | .sub _ _ _ => "SUB"
  | .sw _ _ _ => "SW"
  | .syscall _ => "SYSCALL"
  | .xor _ _ _ => "XOR"
  | .nop => "NOP"
  | .ssnop => "SSNOP"

/-- The Format line of the instruction's page (R85). SSNOP has no page; its spelling is R86's. -/
def Instr.formatLine : Instr → String
  | .add _ _ _ => "ADD rd, rs, rt"
  | .addi _ _ _ => "ADDI rt, rs, immediate"
  | .and _ _ _ => "AND rd, rs, rt"
  | .beq _ _ _ => "BEQ rs, rt, offset"
  | .bgtz _ _ => "BGTZ rs, offset"
  | .blez _ _ => "BLEZ rs, offset"
  | .bne _ _ _ => "BNE rs, rt, offset"
  | .div _ _ => "DIV rs, rt"
  | .j _ => "J target"
  | .jal _ => "JAL target"
  | .jr _ => "JR rs"
  | .lui _ _ => "LUI rt, immediate"
  | .lw _ _ _ => "LW rt, offset(base)"
  | .mfhi _ => "MFHI rd"
  | .mflo _ => "MFLO rd"
  | .mult _ _ => "MULT rs, rt"
  | .or _ _ _ => "OR rd, rs, rt"
  | .rotr _ _ _ => "ROTR rd, rt, sa"
  | .sll _ _ _ => "SLL rd, rt, sa"
  | .slt _ _ _ => "SLT rd, rs, rt"
  | .srl _ _ _ => "SRL rd, rt, sa"
  | .sub _ _ _ => "SUB rd, rs, rt"
  | .sw _ _ _ => "SW rt, offset(base)"
  | .syscall _ => "SYSCALL"
  | .xor _ _ _ => "XOR rd, rs, rt"
  | .nop => "NOP"
  | .ssnop => "SSNOP"

/-- How this spec writes a register: `rN` (R84). -/
def registerName (r : RegNum) : String := "r" ++ toString r.toNat

end Sys2Proof
end

