-- ==== Sys2Proof/WellFormed.lean ====
section
/-! DEFINITION. Which instructions have an encoding of their own. Every operand field has exactly the
width of its encoding field, so no operand value is ill-formed. -/

namespace Sys2Proof

/-- The instructions the decoder can answer: the 25 of R1. NOP and SSNOP are spellings of SLL, marked
`"decoded": false` in the table, and "take no part in decoding" (R73, R160, R161, log 19). -/
def Instr.wellFormed : Instr → Bool
  | .add _ _ _ => true
  | .addi _ _ _ => true
  | .and _ _ _ => true
  | .beq _ _ _ => true
  | .bgtz _ _ => true
  | .blez _ _ => true
  | .bne _ _ _ => true
  | .div _ _ => true
  | .j _ => true
  | .jal _ => true
  | .jr _ => true
  | .lui _ _ => true
  | .lw _ _ _ => true
  | .mfhi _ => true
  | .mflo _ => true
  | .mult _ _ => true
  | .or _ _ _ => true
  | .rotr _ _ _ => true
  | .sll _ _ _ => true
  | .slt _ _ _ => true
  | .srl _ _ _ => true
  | .sub _ _ _ => true
  | .sw _ _ _ => true
  | .syscall _ => true
  | .xor _ _ _ => true
  | .nop => false
  | .ssnop => false

end Sys2Proof
end

