-- ==== Sys2Proof/Decode.lean ====
section
/-! DEFINITION. From words to instructions and back: 30_encoding.md, and the byte order of a word (R44). -/

namespace Sys2Proof

/-! ### Fields (R62) -/

/-- The major opcode, bits 31:26. -/
def fieldOpcode (w : Word) : BitVec 6 := w.extractLsb' 26 6
/-- `rs` (and `base`), bits 25:21. -/
def fieldRs (w : Word) : BitVec 5 := w.extractLsb' 21 5
/-- `rt`, bits 20:16. -/
def fieldRt (w : Word) : BitVec 5 := w.extractLsb' 16 5
/-- `rd`, bits 15:11. -/
def fieldRd (w : Word) : BitVec 5 := w.extractLsb' 11 5
/-- `sa` (and JR's `hint`), bits 10:6. -/
def fieldSa (w : Word) : BitVec 5 := w.extractLsb' 6 5
/-- The function code of SPECIAL, bits 5:0. -/
def fieldFunct (w : Word) : BitVec 6 := w.extractLsb' 0 6
/-- `immediate` and `offset`, bits 15:0. -/
def fieldImm (w : Word) : BitVec 16 := w.extractLsb' 0 16
/-- `instr_index`, bits 25:0. -/
def fieldIndex (w : Word) : BitVec 26 := w.extractLsb' 0 26
/-- SYSCALL's `code`, bits 25:6. -/
def fieldCode (w : Word) : BitVec 20 := w.extractLsb' 6 20

/-! ### Decode (R73 to R80) -/

/-- `i` if the fixed-zero fields of its row are zero; otherwise the word is Invalid (R77). -/
def ifZero (zeros : Bool) (i : Instr) : Option Instr := if zeros then some i else none

/-- The words of major opcode SPECIAL, told apart by their function code (R63, R75, R76). The eleven
values that D0's lost figures held are the spec's, from general knowledge (R66, log 17). -/
def decodeSpecial (w : Word) : Option Instr :=
  match fieldFunct w with
  | 0b000000#6 => ifZero (fieldRs w == 0#5) (.sll (fieldRd w) (fieldRt w) (fieldSa w))
  | 0b000010#6 =>
    if fieldRs w = 0b00000#5 then some (.srl (fieldRd w) (fieldRt w) (fieldSa w))
    else ifZero (fieldRs w == 0b00001#5) (.rotr (fieldRd w) (fieldRt w) (fieldSa w))
  | 0b001000#6 => ifZero (fieldRt w == 0#5 && fieldRd w == 0#5 && fieldSa w == 0#5) (.jr (fieldRs w))
  | 0b001100#6 => some (.syscall (fieldCode w))
  | 0b010000#6 => ifZero (fieldRs w == 0#5 && fieldRt w == 0#5 && fieldSa w == 0#5) (.mfhi (fieldRd w))
  | 0b010010#6 => ifZero (fieldRs w == 0#5 && fieldRt w == 0#5 && fieldSa w == 0#5) (.mflo (fieldRd w))
  | 0b011000#6 => ifZero (fieldRd w == 0#5 && fieldSa w == 0#5) (.mult (fieldRs w) (fieldRt w))
  | 0b011010#6 => ifZero (fieldRd w == 0#5 && fieldSa w == 0#5) (.div (fieldRs w) (fieldRt w))
  | 0b100000#6 => ifZero (fieldSa w == 0#5) (.add (fieldRd w) (fieldRs w) (fieldRt w))
  | 0b100010#6 => ifZero (fieldSa w == 0#5) (.sub (fieldRd w) (fieldRs w) (fieldRt w))
  | 0b100100#6 => ifZero (fieldSa w == 0#5) (.and (fieldRd w) (fieldRs w) (fieldRt w))
  | 0b100101#6 => ifZero (fieldSa w == 0#5) (.or (fieldRd w) (fieldRs w) (fieldRt w))
  | 0b100110#6 => ifZero (fieldSa w == 0#5) (.xor (fieldRd w) (fieldRs w) (fieldRt w))
  | 0b101010#6 => ifZero (fieldSa w == 0#5) (.slt (fieldRd w) (fieldRs w) (fieldRt w))
  | _ => none

/-- `Decode(w)` of R73: total; `none` is the spec's `Invalid`, which the step refuses by the name
`notInScope` (R74, R78, R80). -/
def decode (w : Word) : Option Instr :=
  match fieldOpcode w with
  | 0b000000#6 => decodeSpecial w
  | 0b000010#6 => some (.j (fieldIndex w))
  | 0b000011#6 => some (.jal (fieldIndex w))
  | 0b000100#6 => some (.beq (fieldRs w) (fieldRt w) (fieldImm w))
  | 0b000101#6 => some (.bne (fieldRs w) (fieldRt w) (fieldImm w))
  | 0b000110#6 => ifZero (fieldRt w == 0#5) (.blez (fieldRs w) (fieldImm w))
  | 0b000111#6 => ifZero (fieldRt w == 0#5) (.bgtz (fieldRs w) (fieldImm w))
  | 0b001000#6 => some (.addi (fieldRt w) (fieldRs w) (fieldImm w))
  | 0b001111#6 => ifZero (fieldRs w == 0#5) (.lui (fieldRt w) (fieldImm w))
  | 0b100011#6 => some (.lw (fieldRt w) (fieldImm w) (fieldRs w))
  | 0b101011#6 => some (.sw (fieldRt w) (fieldImm w) (fieldRs w))
  | _ => none

/-! ### Encode (R61, R63 to R65) -/

/-- Format R: `opcode rs rt rd sa funct`, with opcode SPECIAL (R61, R63). -/
def formatR (rs rt rd sa : BitVec 5) (funct : BitVec 6) : Word :=
  0b000000#6 ++ rs ++ rt ++ rd ++ sa ++ funct

/-- Format I: `opcode rs rt imm16` (R61, R64). -/
def formatI (opcode : BitVec 6) (rs rt : BitVec 5) (imm : BitVec 16) : Word :=
  opcode ++ rs ++ rt ++ imm

/-- Format J: `opcode instr_index` (R61, R65). -/
def formatJ (opcode : BitVec 6) (index : BitVec 26) : Word := opcode ++ index

/-- SYSCALL's layout: SPECIAL, the wide `code` field, `001100` (R63, R170). -/
def formatSyscall (code : BitVec 20) : Word := 0b000000#6 ++ code ++ 0b001100#6

/-- The word of an instruction, from the tables R63 to R65; the idioms' words from R86. -/
def encode : Instr → Word
  | .add rd rs rt => formatR rs rt rd 0#5 0b100000#6
  | .addi rt rs imm => formatI 0b001000#6 rs rt imm
  | .and rd rs rt => formatR rs rt rd 0#5 0b100100#6
  | .beq rs rt off => formatI 0b000100#6 rs rt off
  | .bgtz rs off => formatI 0b000111#6 rs 0#5 off
  | .blez rs off => formatI 0b000110#6 rs 0#5 off
  | .bne rs rt off => formatI 0b000101#6 rs rt off
  | .div rs rt => formatR rs rt 0#5 0#5 0b011010#6
  | .j index => formatJ 0b000010#6 index
  | .jal index => formatJ 0b000011#6 index
  | .jr rs => formatR rs 0#5 0#5 0#5 0b001000#6
  | .lui rt imm => formatI 0b001111#6 0#5 rt imm
  | .lw rt off base => formatI 0b100011#6 base rt off
  | .mfhi rd => formatR 0#5 0#5 rd 0#5 0b010000#6
  | .mflo rd => formatR 0#5 0#5 rd 0#5 0b010010#6
  | .mult rs rt => formatR rs rt 0#5 0#5 0b011000#6
  | .or rd rs rt => formatR rs rt rd 0#5 0b100101#6
  | .rotr rd rt sa => formatR 1#5 rt rd sa 0b000010#6
  | .sll rd rt sa => formatR 0#5 rt rd sa 0b000000#6
  | .slt rd rs rt => formatR rs rt rd 0#5 0b101010#6
  | .srl rd rt sa => formatR 0#5 rt rd sa 0b000010#6
  | .sub rd rs rt => formatR rs rt rd 0#5 0b100010#6
  | .sw rt off base => formatI 0b101011#6 base rt off
  | .syscall code => formatSyscall code
  | .xor rd rs rt => formatR rs rt rd 0#5 0b100110#6
  | .nop => 0x00000000#32
  | .ssnop => 0x00000040#32

/-! ### The opcode table (R73) -/

/-- One row of spec/opcode_table.json: a word is the row's when `w and mask = pattern`. -/
structure OpcodeRow where
  mnemonic : String
  pattern : Word
  mask : Word
deriving DecidableEq, Repr

/-- The 25 decoded rows of spec/opcode_table.json, in its order, with its `match` and `mask`. -/
def opcodeTable : List OpcodeRow :=
  [⟨"ADD", 0x00000020, 0xFC0007FF⟩, ⟨"ADDI", 0x20000000, 0xFC000000⟩,
   ⟨"AND", 0x00000024, 0xFC0007FF⟩, ⟨"BEQ", 0x10000000, 0xFC000000⟩,
   ⟨"BGTZ", 0x1C000000, 0xFC1F0000⟩, ⟨"BLEZ", 0x18000000, 0xFC1F0000⟩,
   ⟨"BNE", 0x14000000, 0xFC000000⟩, ⟨"DIV", 0x0000001A, 0xFC00FFFF⟩,
   ⟨"J", 0x08000000, 0xFC000000⟩, ⟨"JAL", 0x0C000000, 0xFC000000⟩,
   ⟨"JR", 0x00000008, 0xFC1FFFFF⟩, ⟨"LUI", 0x3C000000, 0xFFE00000⟩] ++
  [⟨"LW", 0x8C000000, 0xFC000000⟩, ⟨"MFHI", 0x00000010, 0xFFFF07FF⟩,
   ⟨"MFLO", 0x00000012, 0xFFFF07FF⟩, ⟨"MULT", 0x00000018, 0xFC00FFFF⟩,
   ⟨"OR", 0x00000025, 0xFC0007FF⟩, ⟨"ROTR", 0x00200002, 0xFFE0003F⟩,
   ⟨"SLL", 0x00000000, 0xFFE0003F⟩, ⟨"SLT", 0x0000002A, 0xFC0007FF⟩,
   ⟨"SRL", 0x00000002, 0xFFE0003F⟩, ⟨"SUB", 0x00000022, 0xFC0007FF⟩,
   ⟨"SW", 0xAC000000, 0xFC000000⟩, ⟨"SYSCALL", 0x0000000C, 0xFC00003F⟩,
   ⟨"XOR", 0x00000026, 0xFC0007FF⟩]

/-- The two rows of spec/opcode_table.json marked `"decoded": false`: other spellings of SLL (R73). -/
def aliasTable : List OpcodeRow :=
  [⟨"NOP", 0x00000000, 0xFFFFFFFF⟩, ⟨"SSNOP", 0x00000040, 0xFFFFFFFF⟩]

/-- The row a word belongs to (R73). -/
def OpcodeRow.admits (r : OpcodeRow) (w : Word) : Bool := w &&& r.mask == r.pattern

/-! ### Bytes (R44, R60) -/

/-- The word that four bytes at rising addresses make, in the memory's byte order (R44). -/
def wordOfBytes (bigEndian : Bool) (b0 b1 b2 b3 : Byte) : Word :=
  if bigEndian then b0 ++ b1 ++ b2 ++ b3 else b3 ++ b2 ++ b1 ++ b0

/-- Byte `k` (0 to 3, rising addresses) of a word, in the memory's byte order (R44). -/
def byteOfWord (bigEndian : Bool) (w : Word) (k : Nat) : Byte :=
  if bigEndian then w.extractLsb' (8 * (3 - k)) 8 else w.extractLsb' (8 * k) 8

/-- Why bytes are not an instruction. -/
inductive DecodeError where
  /-- Fewer than the four bytes of an instruction (R60). -/
  | truncated
  /-- The word matches no row of the table: the spec's `Invalid` (R73, R78). -/
  | invalid (w : Word)
deriving DecidableEq, Repr

/-- The instruction at the head of a list of bytes, and the rest of the list (R60, R73). -/
def decodeBytes (bigEndian : Bool) : List Byte → Except DecodeError (Instr × List Byte)
  | b0 :: b1 :: b2 :: b3 :: rest =>
    match decode (wordOfBytes bigEndian b0 b1 b2 b3) with
    | some i => .ok (i, rest)
    | none => .error (.invalid (wordOfBytes bigEndian b0 b1 b2 b3))
  | [] => .error .truncated
  | [_] => .error .truncated
  | [_, _] => .error .truncated
  | [_, _, _] => .error .truncated

/-- The four bytes of a word at rising addresses (R44). -/
def bytesOfWord (bigEndian : Bool) (w : Word) : List Byte :=
  [byteOfWord bigEndian w 0, byteOfWord bigEndian w 1, byteOfWord bigEndian w 2,
   byteOfWord bigEndian w 3]

/-- The 32-bit word whose low `nbits` bits are `w`'s and whose other bits are zero. -/
def tableWord (nbits w : Nat) : Word := BitVec.ofNat 32 (w % 2 ^ nbits)

/-- The host's view of the decoder: the instruction it reads from the bytes of a table word. The byte
order is unobservable here (R44, log 8). -/
def decodeTableWord (nbits w : Nat) : Option Instr :=
  match decodeBytes false (bytesOfWord false (tableWord nbits w)) with
  | .ok (i, _) => some i
  | .error _ => none

end Sys2Proof
end

