-- ==== Sys2Proof/Config.lean ====
section
/-! DEFINITION. What the spec fixes for this hardware (R6 to R10) and the free values of DIV by zero
(R131). The OPEN parameters of R6 are the launch's: they stand in `Machine.State`. -/

namespace Sys2Proof

/-- D0's `ArchitectureRevision()`, FIXED at 2 (R8; the spec's decision D2, log 14). -/
def Config.archRev : Nat := 2

/-- `Config3.SM`: the SmartMIPS ASE is not implemented (R10; decision D2, log 14). -/
def Config.config3SM : Bool := false

/-- `Config1.CA`: the MIPS16e ASE is not implemented (R9; decision D3, log 15). No meaning reads it:
the machine has no `ISAMode`, and JR is D0's arm for `Config1.CA = 0`. -/
def Config.config1CA : Bool := false

/-- DESIGN CHOICE (log 10). HI after the `n`-th DIV by zero: any value, under no law (R131). -/
opaque Config.divZeroHi : Nat → Word

/-- DESIGN CHOICE (log 10). LO after the `n`-th DIV by zero: any value, under no law (R131). -/
opaque Config.divZeroLo : Nat → Word

end Sys2Proof
end

