-- ==== Sys2Proof/Machine/State.lean ====
section
/-! DEFINITION. The machine's state, the reasons a step stops, and the state after reset: 10_state.md,
20_memory.md, 60_exceptions.md R180 to R189. -/

namespace Sys2Proof.Machine

open Sys2Proof

/-- The delay state of R28: whether the instruction at `pc` is in a branch delay slot, and where control
goes after it (log 23). -/
inductive Delay where
  /-- The instruction at `pc` does not follow a branch or jump. -/
  | none
  /-- It follows a conditional branch whose condition was false: the next instruction in memory follows. -/
  | notTaken
  /-- It follows a jump, or a branch whose condition was true: `target` follows. -/
  | taken (target : Word)
deriving DecidableEq, Repr

/-- Which of the two admitted regions of R48. -/
inductive RegionKind where
  /-- `CodeRegion`: fetch only. -/
  | code
  /-- `DataRegion`: LW and SW only. -/
  | data
deriving DecidableEq, Repr

/-- `words` consecutive word addresses from word number `firstWord` (byte address `4 * firstWord`). -/
structure Region where
  firstWord : Nat
  words : Nat
  kind : RegionKind
deriving DecidableEq, Repr

/-- DESIGN CHOICE (log 4). `CodeRegion` and `DataRegion` as one list: a word belongs to the first region
that covers it, so that the two sets are disjoint for every list, as R48 requires. -/
abbrev MemoryMap := List Region

/-- The OPEN parameters of R6 that stay fixed for a run. The spec does not call them state; they stand in
`State` because a step has no other argument (log 3), and no step changes them. -/
structure Params where
  /-- `BigEndian` (R44). -/
  bigEndian : Bool
  /-- `CodeRegion` and `DataRegion` (R48). -/
  map : MemoryMap
deriving DecidableEq, Repr

/-- Memory (R40, R41, R45): the bytes that differ from what an unlisted address reads as, addresses
strictly rising. -/
abbrev Memory := List Host.Cell

/-- The architectural state (10_state.md), the launch parameters, and the model's own draw counter. -/
structure State where
  /-- `GPR[0]` to `GPR[31]` (R20, R21), read and written only through `State.x` and `State.setX`. -/
  gpr : Vector Word 32
  /-- HI (R24). -/
  hi : Word
  /-- LO (R24). -/
  lo : Word
  /-- The address of the instruction to execute (R26). -/
  pc : Word
  /-- The delay state (R28). -/
  delay : Delay
  /-- Memory (R45). -/
  mem : Memory
  /-- The launch parameters (R6). -/
  params : Params
  /-- The model's own: how many free values DIV by zero has drawn (R131, log 10). -/
  draws : Nat
deriving DecidableEq, Repr

/-- The exceptions D0 names (R180). -/
inductive Exc where
  /-- Raised by ADD, ADDI, SUB (R181). -/
  | integerOverflow
  /-- Raised by LW, SW and instruction fetch (R181). -/
  | addressError
  /-- Never raised: folded into `accessNotAdmitted` (R183). -/
  | tlbRefill
  /-- Never raised: folded into `accessNotAdmitted` (R183). -/
  | tlbInvalid
  /-- Never raised: folded into `accessNotAdmitted` (R183). -/
  | tlbModified
  /-- Never raised: folded into `accessNotAdmitted` (R183). -/
  | busError
  /-- Never raised: folded into `accessNotAdmitted` (R183). -/
  | watch
  /-- Never raised with `ArchRev = 2` (R79, R184). -/
  | reservedInstruction
  /-- Raised by SYSCALL (R170, R181). -/
  | systemCall
deriving DecidableEq, Repr

/-- What a raised exception records (R186, R187). -/
structure Trap where
  /-- The exception's name (R185: the model needs no code). -/
  exc : Exc
  /-- The state before the instruction, its pending delay state included. -/
  state : State
  /-- The address of the instruction that raised it; for a fetch, the misaligned address. -/
  pc : Word
  /-- Whether that instruction was in a delay slot. -/
  inDelaySlot : Bool
  /-- The offending address, for Address Error only. -/
  vaddr : Option Word
deriving DecidableEq, Repr

/-- Why the operation of the processor is UNPREDICTABLE (R200). -/
inductive UnpredictableReason where
  /-- A branch or jump in the delay slot of a branch or jump (R122). -/
  | branchInDelaySlot
  /-- ROTR on a processor that does not implement it: only if `ArchRev` is re-opened (R162). -/
  | rotrNotImplemented
deriving DecidableEq, Repr

/-- The kind of a refused access (R48). -/
inductive AccessKind where
  | fetch
  | load
  | store
deriving DecidableEq, Repr

/-- The terminal outcomes of R12 that end a run as faults. Each carries the state, unchanged by the
instruction that stopped. -/
inductive Fault where
  /-- Raised by ADD, ADDI, SUB, LW, SW, SYSCALL and a misaligned fetch (R181, R187). Safe: the spec
  describes no handler, and what one would do is left unprovable (R188, log 1). -/
  | trap (t : Trap)
  /-- Raised by a branch or jump in a delay slot (R122, R200). Safe: D0 gives no behaviour. -/
  | unpredictable (reason : UnpredictableReason) (s : State)
  /-- Raised by a fetch outside CodeRegion, or an LW or SW outside DataRegion (R48, R51). Safe: it stands
  for the TLB, bus, watch and privilege exceptions that D0 does not define. -/
  | accessNotAdmitted (kind : AccessKind) (addr : Word) (s : State)
deriving DecidableEq, Repr

/-- Why a step has no meaning in the model. -/
inductive Refusal where
  /-- An instruction whose meaning has not been written: no arm of `exec` answers it. Safe. -/
  | notModelled (mnemonic : String)
  /-- Raised by the step for a word that is none of the 25 encodings (R78): perhaps a MIPS32
  instruction D0 does not describe. Safe. -/
  | notInScope (w : Word) (s : State)
deriving DecidableEq, Repr

/-- What a step answers (R12). -/
abbrev Result := Host.Outcome State Fault Refusal

/-- DESIGN CHOICE (logs 5 to 10). The machine after reset. D0 describes no reset (R210), so that the spec
fixes only `delay = None` and `x[0] = 0` (R37, R38); the OPEN launch values stand at the log's values,
with no region admitted and no program loaded. -/
def State.reset : State where
  gpr := Vector.replicate 32 0
  hi := 0
  lo := 0
  pc := 0
  delay := .none
  mem := []
  params := { bigEndian := false, map := [] }
  draws := 0

/-- What the host supplies at launch (R36 to R39, R55, R213). -/
structure Launch where
  params : Params
  /-- `EntryPC` (R36). -/
  entryPC : Word
  /-- The launch values of the general registers; slot 0 is not used (R38). -/
  gpr : Vector Word 32
  hi : Word
  lo : Word
  /-- The bytes of the launch image (R39). -/
  image : List (Word × Byte)
deriving DecidableEq, Repr

end Sys2Proof.Machine
end

