-- ==== Sys2Proof/Machine/Ops.lean ====
section
/-! DEFINITION. The operations every meaning is written with: registers (R17, R22), memory (R43 to R48),
the end of the instruction cycle (R30 step 8), and raising an exception (R187). -/

namespace Sys2Proof.Machine

open Sys2Proof

/-! ### General registers -/

/-- `x[i]`: register `i`, and zero for register 0 (R17, R22; log 13). -/
def State.x (s : State) (i : RegNum) : Word :=
  if i = 0#5 then 0#32 else s.gpr[i.toNat]'i.isLt

/-- `x[i] <- v`: discarded for register 0 (R17, R22; log 13). -/
def State.setX (s : State) (i : RegNum) (v : Word) : State :=
  { s with gpr := if i = 0#5 then s.gpr else s.gpr.set i.toNat v i.isLt }

/-- HI and LO, written together (R24). -/
def State.setHiLo (s : State) (hi lo : Word) : State := { s with hi := hi, lo := lo }

/-- DIV by zero: HI and LO take the next free values, and the counter moves on, so that the next draw is
afresh (R131; log 10). -/
def State.drawHiLo (s : State) : State :=
  { s with hi := Config.divZeroHi s.draws, lo := Config.divZeroLo s.draws, draws := s.draws + 1 }

/-! ### Memory as bytes -/

/-- DESIGN CHOICE (log 9). What an address that the memory does not list reads as. -/
def Memory.unlisted : Byte := 0

/-- The byte at an address: memory is a total map (R45). -/
def Memory.read : Memory → Nat → Byte
  | [], _ => Memory.unlisted
  | c :: m, a => if c.1 = a then c.2 else Memory.read m a

/-- The cell, put before the first listed address above it. -/
def Memory.insert (c : Host.Cell) : Memory → Memory
  | [] => [c]
  | d :: m => if c.1 < d.1 then c :: d :: m else d :: Memory.insert c m

/-- One byte replaced and no other (R45), the canonical form kept. -/
def Memory.write (m : Memory) (a : Nat) (v : Byte) : Memory :=
  if v = Memory.unlisted then m.filter (fun c => c.1 != a)
  else Memory.insert (a, v) (m.filter (fun c => c.1 != a))

/-- Every listed address is above `n`, and they rise strictly. -/
def Memory.risingFrom : Nat → Memory → Bool
  | _, [] => true
  | n, c :: m => decide (n ≤ c.1) && Memory.risingFrom (c.1 + 1) m

/-- The canonical form: addresses strictly rising and in the 32-bit space (R40), and no entry equal to
what an unlisted address reads as. -/
def Memory.wf (m : Memory) : Bool :=
  Memory.risingFrom 0 m && m.all (fun c => decide (c.1 < 2 ^ 32) && c.2 != Memory.unlisted)

/-- The address of byte `k` of the word at `a`; on an aligned address it never wraps. -/
def byteAddr (a : Word) (k : Nat) : Nat := (a + BitVec.ofNat 32 k).toNat

/-- The word at an address, in the memory's byte order (R44). -/
def Memory.readWord (bigEndian : Bool) (m : Memory) (a : Word) : Word :=
  wordOfBytes bigEndian (m.read (byteAddr a 0)) (m.read (byteAddr a 1)) (m.read (byteAddr a 2))
    (m.read (byteAddr a 3))

/-- The word at an address replaced, in the memory's byte order (R44, R45). -/
def Memory.writeWord (bigEndian : Bool) (m : Memory) (a v : Word) : Memory :=
  (((m.write (byteAddr a 0) (byteOfWord bigEndian v 0)).write (byteAddr a 1)
    (byteOfWord bigEndian v 1)).write (byteAddr a 2) (byteOfWord bigEndian v 2)).write
    (byteAddr a 3) (byteOfWord bigEndian v 3)

/-- The word of memory at an address: `mem[addr]` of R45 and R46. -/
def State.word (s : State) (a : Word) : Word := s.mem.readWord s.params.bigEndian a

/-- `MemWrite(addr, 4, v)` (R45). -/
def State.setWord (s : State) (a v : Word) : State :=
  { s with mem := s.mem.writeWord s.params.bigEndian a v }

/-! ### Alignment and the admitted regions -/

/-- Naturally aligned: the two low bits are zero (R27, R43). -/
def aligned (a : Word) : Bool := a.extractLsb' 0 2 == 0#2

/-- Whether a region holds the word at an address. -/
def Region.covers (r : Region) (a : Word) : Bool :=
  decide (r.firstWord ≤ a.toNat / 4) && decide (a.toNat / 4 < r.firstWord + r.words)

/-- The region a word lies in: the first that covers it (log 4). -/
def MemoryMap.kindAt (m : MemoryMap) (a : Word) : Option RegionKind :=
  (m.find? (fun r => r.covers a)).map (fun r => r.kind)

/-- `a ∈ CodeRegion`, a set of word-aligned addresses (R48). -/
def State.inCode (s : State) (a : Word) : Bool :=
  aligned a && MemoryMap.kindAt s.params.map a == some .code

/-- `a ∈ DataRegion`, a set of word-aligned addresses (R48). -/
def State.inData (s : State) (a : Word) : Bool :=
  aligned a && MemoryMap.kindAt s.params.map a == some .data

/-! ### The instruction cycle -/

/-- `in_slot` of R30 step 5. -/
def State.inDelaySlot (s : State) : Bool := s.delay != .none

/-- The address after this step: the pending target, or the next word, modulo 2^32 (R30 step 8, R32). -/
def State.nextPc (s : State) : Word :=
  match s.delay with
  | .none => s.pc + 4#32
  | .notTaken => s.pc + 4#32
  | .taken t => t

/-- R30 step 8: `pc` and `delay` move on. -/
def State.advance (s : State) (newDelay : Delay) : State :=
  { s with pc := s.nextPc, delay := newDelay }

/-- An instruction outside the branch-or-jump class has done its work: R30 step 8 with `new_delay = None`
(R31). -/
def complete (s : State) : Result := .next (s.advance .none)

/-- A branch or jump: R30 steps 6 to 8. `s` is the state it was fetched in and `s'` that state with its
time-I writes (JAL's link); in a delay slot its operation is UNPREDICTABLE (R122, R200). -/
def branchOrJump (s s' : State) (newDelay : Delay) : Result :=
  if s.inDelaySlot then .fault (.unpredictable .branchInDelaySlot s)
  else .next (s'.advance newDelay)

/-- Taking an exception, as the spec describes it: `raise E(info)` ends the run with a record of the
exception, the state before the instruction, its address, whether it stood in a delay slot, and the
offending address (R18, R186, R187). There is no handler to go to and no return (R188, R191; log 1). -/
def raise (e : Exc) (vaddr : Option Word) (s : State) : Result :=
  .fault (.trap { exc := e, state := s, pc := s.pc, inDelaySlot := s.inDelaySlot, vaddr := vaddr })

/-! ### Shared meanings -/

/-- The tail of ADD, ADDI and SUB: `if temp[32] != temp[31] then raise IntegerOverflow() else
x[rd] <- temp[31:0]` (R100), given the test and the low 32 bits. -/
def writeUnless (overflow : Bool) (rd : RegNum) (v : Word) (s : State) : Result :=
  if overflow then raise .integerOverflow none s else complete (s.setX rd v)

/-- LW from its effective address on: alignment, admission, access, register write (R151, R152). -/
def loadWord (rt : RegNum) (vAddr : Word) (s : State) : Result :=
  if aligned vAddr = false then raise .addressError (some vAddr) s
  else if s.inData vAddr = false then .fault (.accessNotAdmitted .load vAddr s)
  else complete (s.setX rt (s.word vAddr))

/-- SW from its effective address on: alignment, admission, access (R151, R153). -/
def storeWord (vAddr v : Word) (s : State) : Result :=
  if aligned vAddr = false then raise .addressError (some vAddr) s
  else if s.inData vAddr = false then .fault (.accessNotAdmitted .store vAddr s)
  else complete (s.setWord vAddr v)

/-! ### The launch -/

/-- The launch image written into empty memory. -/
def Memory.ofImage (image : List (Word × Byte)) : Memory :=
  image.foldl (fun m c => m.write c.1.toNat c.2) []

/-- The state a run starts from, for every value of the OPEN launch parameters: `pc = EntryPC`, no delay
pending, `x[0] = 0` (R36 to R39, R210, R211, R213). -/
def State.ofLaunch (l : Launch) : State where
  gpr := l.gpr.set 0 0
  hi := l.hi
  lo := l.lo
  pc := l.entryPC
  delay := .none
  mem := Memory.ofImage l.image
  params := l.params
  draws := 0

end Sys2Proof.Machine
end

