-- ==== Sys2Proof/Machine/Operands.lean ====
section
/-! DEFINITION. Operand forms: how an instruction's fields become values and addresses (R67 to R72, R120,
R140, R150). -/

namespace Sys2Proof.Machine

open Sys2Proof

/-- `sext_33(x[r])`, an operand of ADD, ADDI and SUB (R100). -/
def wide (v : Word) : BitVec 33 := v.signExtend 33

/-- ADDI's `sext_33(immediate)` (R67). -/
def wideImmediate (imm : BitVec 16) : BitVec 33 := imm.signExtend 33

/-- `temp[31:0]` (R101). -/
def low32 (temp : BitVec 33) : Word := temp.extractLsb' 0 32

/-- LUI's `immediate ## 0^16` (R70). -/
def upperImmediate (imm : BitVec 16) : Word := imm ++ 0#16

/-- `sext_32(offset ## 0^2)`, an 18-bit signed offset (R68). -/
def branchOffset (offset : BitVec 16) : Word := (offset ++ 0#2).signExtend 32

/-- `(pc + 4) + target_offset` (R120). -/
def branchTarget (pc : Word) (offset : BitVec 16) : Word := pc + 4#32 + branchOffset offset

/-- `(pc + 4)[31:28] ## instr_index ## 0^2` (R69). -/
def jumpTarget (pc : Word) (instrIndex : BitVec 26) : Word :=
  (pc + 4#32).extractLsb' 28 4 ++ instrIndex ++ 0#2

/-- JAL's link: the address of the second instruction after it (R141). -/
def linkAddress (pc : Word) : Word := pc + 8#32

/-- `new_delay` of a conditional branch (R121). -/
def branchDelay (condition : Bool) (target : Word) : Delay :=
  if condition then .taken target else .notTaken

/-- `vAddr`, the effective address of LW and SW (R71, R150). -/
def effectiveAddress (offset : BitVec 16) (base : RegNum) (s : State) : Word :=
  offset.signExtend 32 + s.x base

end Sys2Proof.Machine
end

