-- ==== Sys2Proof/Machine/Arithmetic.lean ====
section
/-! DEFINITION. ADD, ADDI, LUI, SLT, SUB: 40_arithmetic.md. -/

namespace Sys2Proof.Machine

open Sys2Proof

/-- ADD rd, rs, rt: the exact sum, or Integer Overflow (R101). -/
def execAdd (rd rs rt : RegNum) (s : State) : Result :=
  let temp := wide (s.x rs) + wide (s.x rt)
  writeUnless (overflows temp) rd (low32 temp) s

/-- ADDI rt, rs, immediate: the exact sum with the signed immediate, or Integer Overflow (R102). -/
def execAddi (rt rs : RegNum) (immediate : BitVec 16) (s : State) : Result :=
  let temp := wide (s.x rs) + wideImmediate immediate
  writeUnless (overflows temp) rt (low32 temp) s

/-- LUI rt, immediate (R103). -/
def execLui (rt : RegNum) (immediate : BitVec 16) (s : State) : Result :=
  complete (s.setX rt (upperImmediate immediate))

/-- SLT rd, rs, rt: 1 if the signed values are in that order, otherwise 0; never a trap (R104). -/
def execSlt (rd rs rt : RegNum) (s : State) : Result :=
  complete (s.setX rd (if signedLess (s.x rs) (s.x rt) then 1#32 else 0#32))

/-- SUB rd, rs, rt: the exact difference, or Integer Overflow (R105). -/
def execSub (rd rs rt : RegNum) (s : State) : Result :=
  let temp := wide (s.x rs) - wide (s.x rt)
  writeUnless (overflows temp) rd (low32 temp) s

end Sys2Proof.Machine
end

