-- ==== Sys2Proof/Machine/Branch.lean ====
section
/-! DEFINITION. BEQ, BGTZ, BLEZ, BNE: 42_branch.md. Each only computes `new_delay`, at time I (R121, log 23). -/

namespace Sys2Proof.Machine

open Sys2Proof

/-- BEQ rs, rt, offset (R125); with `rs = rt = 0` it is the idiom B (R129). -/
def execBeq (rs rt : RegNum) (offset : BitVec 16) (s : State) : Result :=
  branchOrJump s s (branchDelay (equal (s.x rs) (s.x rt)) (branchTarget s.pc offset))

/-- BGTZ rs, offset (R126). -/
def execBgtz (rs : RegNum) (offset : BitVec 16) (s : State) : Result :=
  branchOrJump s s (branchDelay (positive (s.x rs)) (branchTarget s.pc offset))

/-- BLEZ rs, offset (R127). -/
def execBlez (rs : RegNum) (offset : BitVec 16) (s : State) : Result :=
  branchOrJump s s (branchDelay (nonPositive (s.x rs)) (branchTarget s.pc offset))

/-- BNE rs, rt, offset (R128). -/
def execBne (rs rt : RegNum) (offset : BitVec 16) (s : State) : Result :=
  branchOrJump s s (branchDelay (!equal (s.x rs) (s.x rt)) (branchTarget s.pc offset))

end Sys2Proof.Machine
end

