-- ==== Sys2Proof/Machine/Jump.lean ====
section
/-! DEFINITION. J, JAL, JR: 44_jump.md. -/

namespace Sys2Proof.Machine

open Sys2Proof

/-- J target (R140). -/
def execJ (instrIndex : BitVec 26) (s : State) : Result :=
  branchOrJump s s (.taken (jumpTarget s.pc instrIndex))

/-- JAL target: the link is written at time I, before the delay slot (R141). -/
def execJal (instrIndex : BitVec 26) (s : State) : Result :=
  branchOrJump s (s.setX 31#5 (linkAddress s.pc)) (.taken (jumpTarget s.pc instrIndex))

/-- JR rs: all 32 bits of the register, read at time I (R142); a misaligned target is reported at its
fetch (R143). -/
def execJr (rs : RegNum) (s : State) : Result := branchOrJump s s (.taken (s.x rs))

end Sys2Proof.Machine
end

