-- ==== Sys2Proof/Machine/LoadStore.lean ====
section
/-! DEFINITION. LW and SW: 45_loadstore.md. -/

namespace Sys2Proof.Machine

open Sys2Proof

/-- LW rt, offset(base) (R152). -/
def execLw (rt : RegNum) (offset : BitVec 16) (base : RegNum) (s : State) : Result :=
  loadWord rt (effectiveAddress offset base s) s

/-- SW rt, offset(base) (R153). -/
def execSw (rt : RegNum) (offset : BitVec 16) (base : RegNum) (s : State) : Result :=
  storeWord (effectiveAddress offset base s) (s.x rt) s

end Sys2Proof.Machine
end

