-- ==== Sys2Proof/Machine/Logical.lean ====
section
/-! DEFINITION. AND, OR, XOR: 41_logical.md. -/

namespace Sys2Proof.Machine

open Sys2Proof

/-- AND rd, rs, rt (R111). -/
def execAnd (rd rs rt : RegNum) (s : State) : Result :=
  complete (s.setX rd (s.x rs &&& s.x rt))

/-- OR rd, rs, rt (R112). -/
def execOr (rd rs rt : RegNum) (s : State) : Result :=
  complete (s.setX rd (s.x rs ||| s.x rt))

/-- XOR rd, rs, rt (R113). -/
def execXor (rd rs rt : RegNum) (s : State) : Result :=
  complete (s.setX rd (s.x rs ^^^ s.x rt))

end Sys2Proof.Machine
end

