-- ==== Sys2Proof/Machine/MulDiv.lean ====
section
/-! DEFINITION. DIV, MFHI, MFLO, MULT: 43_muldiv.md. None can raise an exception (R135). -/

namespace Sys2Proof.Machine

open Sys2Proof

/-- `to_32(divT(a, b))`: the quotient truncated toward zero (R16, R130; logs 11 and 12). -/
def quotient (a b : Word) : Word := BitVec.ofInt 32 (a.toInt.tdiv b.toInt)

/-- `to_32(remT(a, b))`: the remainder, with the dividend's sign (R16, R130; logs 11 and 12). -/
def remainder (a b : Word) : Word := BitVec.ofInt 32 (a.toInt.tmod b.toInt)

/-- `to_64` of the exact signed product (R134). -/
def product (a b : Word) : BitVec 64 := BitVec.ofInt 64 (a.toInt * b.toInt)

/-- DIV rs, rt: quotient to LO and remainder to HI (R130); by zero, both take free values and the
instruction completes (R131, log 10). -/
def execDiv (rs rt : RegNum) (s : State) : Result :=
  if s.x rt = 0#32 then complete s.drawHiLo
  else complete (s.setHiLo (remainder (s.x rs) (s.x rt)) (quotient (s.x rs) (s.x rt)))

/-- MFHI rd (R132). -/
def execMfhi (rd : RegNum) (s : State) : Result := complete (s.setX rd s.hi)

/-- MFLO rd (R133). -/
def execMflo (rd : RegNum) (s : State) : Result := complete (s.setX rd s.lo)

/-- MULT rs, rt: the low word of the product to LO, the high word to HI (R134). -/
def execMult (rs rt : RegNum) (s : State) : Result :=
  let prod := product (s.x rs) (s.x rt)
  complete (s.setHiLo (prod.extractLsb' 32 32) (prod.extractLsb' 0 32))

end Sys2Proof.Machine
end

