-- ==== Sys2Proof/Machine/Shift.lean ====
section
/-! DEFINITION. ROTR, SLL, SRL and the idioms NOP and SSNOP: 46_shift.md. -/

namespace Sys2Proof.Machine

open Sys2Proof

/-- `x[rt][31-s:0] ## 0^s` (R163). -/
def shiftLeft (v : Word) (sa : BitVec 5) : Word := v <<< sa.toNat

/-- `0^s ## x[rt][31:s]` (R164). -/
def shiftRight (v : Word) (sa : BitVec 5) : Word := v >>> sa.toNat

/-- `x[rt][s-1:0] ## x[rt][31:s]` (R162). -/
def rotateRight (v : Word) (sa : BitVec 5) : Word := v.rotateRight sa.toNat

/-- The guard of D0's ROTR block, false with `ArchRev = 2` (R8, R10, R162; log 14). -/
def rotrMissing : Bool := decide (Config.archRev < 2) && !Config.config3SM

/-- ROTR rd, rt, sa (R162). -/
def execRotr (rd rt : RegNum) (sa : BitVec 5) (s : State) : Result :=
  if rotrMissing then .fault (.unpredictable .rotrNotImplemented s)
  else complete (s.setX rd (rotateRight (s.x rt) sa))

/-- SLL rd, rt, sa (R163). -/
def execSll (rd rt : RegNum) (sa : BitVec 5) (s : State) : Result :=
  complete (s.setX rd (shiftLeft (s.x rt) sa))

/-- SRL rd, rt, sa (R164). -/
def execSrl (rd rt : RegNum) (sa : BitVec 5) (s : State) : Result :=
  complete (s.setX rd (shiftRight (s.x rt) sa))

/-- NOP: interpreted as SLL r0, r0, 0 (R160, log 19). -/
def execNop (s : State) : Result := complete (s.setX 0#5 (shiftLeft (s.x 0#5) 0#5))

/-- SSNOP: SLL r0, r0, 1; its issue break is timing (R161, log 19). -/
def execSsnop (s : State) : Result := complete (s.setX 0#5 (shiftLeft (s.x 0#5) 1#5))

end Sys2Proof.Machine
end

