-- ==== Sys2Proof/Machine/System.lean ====
section
/-! DEFINITION. SYSCALL: 47_system.md. -/

namespace Sys2Proof.Machine

open Sys2Proof

/-- SYSCALL: System Call, always; the code field is ignored (R72, R170, R171; log 1). -/
def execSyscall (_code : BitVec 20) (s : State) : Result := raise .systemCall none s

end Sys2Proof.Machine
end

