-- ==== Sys2Proof/Machine/Dispatch.lean ====
section
/-! DEFINITION. The dispatch: one arm per constructor of `Instr`, each one call of its meaning. A meaning is
steps 5 to 8 of R30 for its instruction. -/

namespace Sys2Proof.Machine

open Sys2Proof

def exec (i : Instr) (s : State) : Host.Outcome State Fault Refusal :=
  match i with
  | .add rd rs rt => Sys2Proof.Machine.execAdd rd rs rt s
  | .addi rt rs imm => Sys2Proof.Machine.execAddi rt rs imm s
  | .and rd rs rt => Sys2Proof.Machine.execAnd rd rs rt s
  | .beq rs rt offset => Sys2Proof.Machine.execBeq rs rt offset s
  | .bgtz rs offset => Sys2Proof.Machine.execBgtz rs offset s
  | .blez rs offset => Sys2Proof.Machine.execBlez rs offset s
  | .bne rs rt offset => Sys2Proof.Machine.execBne rs rt offset s
  | .div rs rt => Sys2Proof.Machine.execDiv rs rt s
  | .j index => Sys2Proof.Machine.execJ index s
  | .jal index => Sys2Proof.Machine.execJal index s
  | .jr rs => Sys2Proof.Machine.execJr rs s
  | .lui rt imm => Sys2Proof.Machine.execLui rt imm s
  | .lw rt offset base => Sys2Proof.Machine.execLw rt offset base s
  | .mfhi rd => Sys2Proof.Machine.execMfhi rd s
  | .mflo rd => Sys2Proof.Machine.execMflo rd s
  | .mult rs rt => Sys2Proof.Machine.execMult rs rt s
  | .or rd rs rt => Sys2Proof.Machine.execOr rd rs rt s
  | .rotr rd rt sa => Sys2Proof.Machine.execRotr rd rt sa s
  | .sll rd rt sa => Sys2Proof.Machine.execSll rd rt sa s
  | .slt rd rs rt => Sys2Proof.Machine.execSlt rd rs rt s
  | .srl rd rt sa => Sys2Proof.Machine.execSrl rd rt sa s
  | .sub rd rs rt => Sys2Proof.Machine.execSub rd rs rt s
  | .sw rt offset base => Sys2Proof.Machine.execSw rt offset base s
  | .syscall code => Sys2Proof.Machine.execSyscall code s
  | .xor rd rs rt => Sys2Proof.Machine.execXor rd rs rt s
  | .nop => Sys2Proof.Machine.execNop s
  | .ssnop => Sys2Proof.Machine.execSsnop s

end Sys2Proof.Machine
end

