-- ==== Sys2Proof/Machine/Fetch.lean ====
section
/-! DEFINITION. Fetching and decoding: R30 steps 1 to 4, R46. -/

namespace Sys2Proof.Machine

open Sys2Proof

/-- `Fetch(addr)` (R46). -/
def State.fetch (s : State) (a : Word) : Word := s.word a

/-- R30 steps 1 to 4: alignment of `pc`, admission of the fetch, fetch, decode; then what `run` does with
the instruction. The order is R190's (log 24). -/
def fetchThen (run : Instr → Result) (s : State) : Result :=
  if aligned s.pc = false then raise .addressError (some s.pc) s
  else if s.inCode s.pc = false then .fault (.accessNotAdmitted .fetch s.pc s)
  else
    match decode (s.fetch s.pc) with
    | none => .refused (.notInScope (s.fetch s.pc) s)
    | some i => run i

/-- The load of one instruction from outside the machine (R55, log 5): the word at an address, and that
word address admitted as code. -/
def State.placeCode (s : State) (a w : Word) : State :=
  { s with
    mem := s.mem.writeWord s.params.bigEndian a w
    params :=
      { s.params with
        map := if s.inCode a then s.params.map
               else { firstWord := a.toNat / 4, words := 1, kind := .code } :: s.params.map } }

end Sys2Proof.Machine
end

