-- ==== Sys2Proof/Machine/Step.lean ====
section
/-! DEFINITION. One step of the machine (R30). -/

namespace Sys2Proof.Machine

open Sys2Proof

/-- `Step(S)` of R30: fetch and decode at `pc`, then the instruction's meaning. -/
def step (s : State) : Host.Outcome State Fault Refusal := fetchThen (fun i => exec i s) s

/-- The state in which the next step fetches and runs the word `w` at `pc` (log 5). -/
def State.withFetchWord (s : State) (nbits w : Nat) : State := s.placeCode s.pc (tableWord nbits w)

end Sys2Proof.Machine
end

