-- ==== Sys2Proof/Safety.lean ====
section
/-! DEFINITION. What counts as a safe run (R12, R171), and the invariant of the state. -/

namespace Sys2Proof.Machine

open Sys2Proof

/-- The branch-or-jump class (R29). -/
def isBranchOrJump : Instr → Bool
  | .beq _ _ _ | .bgtz _ _ | .blez _ _ | .bne _ _ _ | .j _ | .jal _ | .jr _ => true
  | .add _ _ _ | .addi _ _ _ | .and _ _ _ | .div _ _ | .lui _ _ | .lw _ _ _ | .mfhi _ | .mflo _ => false
  | .mult _ _ | .or _ _ _ | .rotr _ _ _ | .sll _ _ _ | .slt _ _ _ | .srl _ _ _ | .sub _ _ _ => false
  | .sw _ _ _ | .syscall _ | .xor _ _ _ | .nop | .ssnop => false

/-- What every reachable state satisfies: memory keeps its canonical form (log 9) and the slot of the
hard-wired register holds zero (R22). -/
def State.Inv (s : State) : Prop := Memory.wf s.mem = true ∧ s.gpr[0] = 0

/-- The end a claim may intend for a program: System Call at a stated address (R171). Every other fault,
and every refusal, is a failure. -/
def intendedEnd (at_ : Word) : Result → Bool
  | .fault (.trap t) => t.exc == .systemCall && t.pc == at_
  | .fault (.unpredictable _ _) => false
  | .fault (.accessNotAdmitted _ _ _) => false
  | .next _ => false
  | .refused _ => false

/-- `k` steps in which nothing fails, ending in a next state or in the intended end (R12, R171). -/
def safeFor (at_ : Word) : Nat → State → Bool
  | 0, _ => true
  | k + 1, s =>
    match step s with
    | .next s' => safeFor at_ k s'
    | .fault f => intendedEnd at_ (.fault f)
    | .refused _ => false

end Sys2Proof.Machine
end

