-- ==== Sys2Proof/Certificates/Slice0/Obligations.lean ====
section
/-! DEFINITION. The statements for the provers. Each docstring names the rule it formalises; where a clause
rests on a decision the spec marks as its own, or on a value from general knowledge, it names the
assumption log's entry. Three such decisions run through the words below: register 0 (D4, log 13), how `pc`
and `delay` move on (D17, log 23), and the record of a stop (D7, log 1). -/

namespace Sys2Proof.Claims

open Sys2Proof Sys2Proof.Machine

/-! ### Words for what an instruction leaves -/

/-- The instruction's word is `w`, and `w` decodes to it. -/
def Encodes (i : Instr) (w : Word) : Prop := encode i = w ∧ decode w = some i

/-- Representable in 32 bits as a signed value (R16, R100). -/
def FitsWord (n : Int) : Prop := -2 ^ 31 ≤ n ∧ n < 2 ^ 31

/-- Every general register reads as before. -/
def RegistersKept (s t : State) : Prop := ∀ r : RegNum, t.x r = s.x r

/-- Register `rd` reads `v`, unless it is register 0; every other register reads as before. -/
def RegisterWritten (rd : RegNum) (v : Word) (s t : State) : Prop :=
  ∀ r : RegNum, t.x r = if r = rd ∧ rd ≠ 0#5 then v else s.x r

/-- HI and LO are as before. -/
def HiLoKept (s t : State) : Prop := t.hi = s.hi ∧ t.lo = s.lo

/-- Every byte of memory reads as before. -/
def MemoryKept (s t : State) : Prop := ∀ a : Nat, t.mem.read a = s.mem.read a

/-- The launch parameters and the draw counter are as before. -/
def LaunchKept (s t : State) : Prop := t.params = s.params ∧ t.draws = s.draws

/-- Where control goes after the instruction at `s.pc` (R30 step 8). -/
def following (s : State) : Word :=
  match s.delay with
  | .none => s.pc + 4#32
  | .notTaken => s.pc + 4#32
  | .taken a => a

/-- `pc` and `delay` after an instruction that sets `new_delay` to `d`. -/
def MovesOn (d : Delay) (s t : State) : Prop := t.pc = following s ∧ t.delay = d

/-- Nothing but register `rd` changes, and control moves on (R31). -/
def OnlyWrites (rd : RegNum) (v : Word) (s t : State) : Prop :=
  RegisterWritten rd v s t ∧ HiLoKept s t ∧ MemoryKept s t ∧ LaunchKept s t ∧ MovesOn .none s t

/-- No register and no memory changes; `new_delay` is `d`. -/
def OnlyMovesOn (d : Delay) (s t : State) : Prop :=
  RegistersKept s t ∧ HiLoKept s t ∧ MemoryKept s t ∧ LaunchKept s t ∧ MovesOn d s t

/-- Nothing but HI and LO changes, and control moves on (R24). -/
def OnlyWritesHiLo (s t : State) : Prop :=
  RegistersKept s t ∧ MemoryKept s t ∧ LaunchKept s t ∧ MovesOn .none s t

/-- The fault of a raised exception: the state before the instruction, its address, whether it stood in a
delay slot, and the offending address (R187). -/
def trapped (e : Exc) (vaddr : Option Word) (s : State) : Fault :=
  .trap { exc := e, state := s, pc := s.pc, inDelaySlot := decide (s.delay ≠ .none), vaddr := vaddr }

/-- `target_offset` of a branch, as a number of bytes (R68, R120). -/
def branchTo (s : State) (offset : BitVec 16) : Word := s.pc + 4#32 + BitVec.ofInt 32 (4 * offset.toInt)

/-- The word made of the four bytes at `pc` and above, in the memory's byte order (R44, R46). -/
def wordAtPc (s : State) : Word :=
  wordOfBytes s.params.bigEndian (s.mem.read s.pc.toNat) (s.mem.read (s.pc.toNat + 1))
    (s.mem.read (s.pc.toNat + 2)) (s.mem.read (s.pc.toNat + 3))

/-- The general registers an instruction reads: the table of R23. -/
def sources : Instr → List RegNum
  | .add _ rs rt | .sub _ rs rt | .and _ rs rt | .or _ rs rt | .xor _ rs rt | .slt _ rs rt => [rs, rt]
  | .addi _ rs _ => [rs]
  | .lui _ _ => []
  | .sll _ rt _ | .srl _ rt _ | .rotr _ rt _ => [rt]
  | .mult rs rt | .div rs rt => [rs, rt]
  | .mfhi _ | .mflo _ => []
  | .beq rs rt _ | .bne rs rt _ => [rs, rt]
  | .bgtz rs _ | .blez rs _ => [rs]
  | .j _ | .jal _ => []
  | .jr rs => [rs]
  | .lw _ _ base => [base]
  | .sw rt _ base => [base, rt]
  | .syscall _ | .nop | .ssnop => []

/-- The general register an instruction writes: the table of R23. -/
def destination : Instr → Option RegNum
  | .add rd _ _ | .sub rd _ _ | .and rd _ _ | .or rd _ _ | .xor rd _ _ | .slt rd _ _ => some rd
  | .addi rt _ _ | .lui rt _ | .lw rt _ _ => some rt
  | .sll rd _ _ | .srl rd _ _ | .rotr rd _ _ | .mfhi rd | .mflo rd => some rd
  | .jal _ => some 31#5
  | .mult _ _ | .div _ _ | .beq _ _ _ | .bne _ _ _ | .bgtz _ _ | .blez _ _ | .j _ | .jr _ => none
  | .sw _ _ _ | .syscall _ | .nop | .ssnop => none

/-- The instructions that write HI and LO: the table of R23. -/
def writesHiLo : Instr → Bool
  | .mult _ _ | .div _ _ => true
  | .add _ _ _ | .addi _ _ _ | .and _ _ _ | .beq _ _ _ | .bgtz _ _ | .blez _ _ | .bne _ _ _ => false
  | .j _ | .jal _ | .jr _ | .lui _ _ | .lw _ _ _ | .mfhi _ | .mflo _ | .or _ _ _ | .rotr _ _ _ => false
  | .sll _ _ _ | .slt _ _ _ | .srl _ _ _ | .sub _ _ _ | .sw _ _ _ | .syscall _ | .xor _ _ _ => false
  | .nop | .ssnop => false

/-- The instruction that reads HI: the table of R23. -/
def readsHi : Instr → Bool
  | .mfhi _ => true
  | .mflo _ => false
  | .add _ _ _ | .addi _ _ _ | .and _ _ _ | .beq _ _ _ | .bgtz _ _ | .blez _ _ | .bne _ _ _ => false
  | .j _ | .jal _ | .jr _ | .lui _ _ | .lw _ _ _ | .mult _ _ | .div _ _ | .or _ _ _ => false
  | .rotr _ _ _ | .sll _ _ _ | .slt _ _ _ | .srl _ _ _ | .sub _ _ _ | .sw _ _ _ | .syscall _ => false
  | .xor _ _ _ | .nop | .ssnop => false

/-- The instruction that reads LO: the table of R23. -/
def readsLo : Instr → Bool
  | .mflo _ => true
  | .mfhi _ => false
  | .add _ _ _ | .addi _ _ _ | .and _ _ _ | .beq _ _ _ | .bgtz _ _ | .blez _ _ | .bne _ _ _ => false
  | .j _ | .jal _ | .jr _ | .lui _ _ | .lw _ _ _ | .mult _ _ | .div _ _ | .or _ _ _ => false
  | .rotr _ _ _ | .sll _ _ _ | .slt _ _ _ | .srl _ _ _ | .sub _ _ _ | .sw _ _ _ | .syscall _ => false
  | .xor _ _ _ | .nop | .ssnop => false

/-- Two states that differ at most in the byte order and in how it lays the same words out (R44). -/
def SameButByteOrder (s s' : State) : Prop :=
  s'.gpr = s.gpr ∧ s'.hi = s.hi ∧ s'.lo = s.lo ∧ s'.pc = s.pc ∧ s'.delay = s.delay ∧
    s'.draws = s.draws ∧ s'.params.map = s.params.map ∧
    ∀ a : Word, a.toNat % 4 = 0 → s'.word a = s.word a

end Sys2Proof.Claims

open Sys2Proof Sys2Proof.Machine Sys2Proof.Claims

/-! ### Encoding -/

/-- Decoding an encoded instruction gives it back, for each of the 25 and every operand value (R63 to R65;
the values of eleven rows are the spec's from general knowledge, log 17). -/
def Obligations.DecodeInvertsEncode : Prop :=
  ∀ i : Instr, i.wellFormed = true → decode (encode i) = some i

/-- A word that decodes is the encoding of the well-formed instruction it decodes to: no operand bit is
dropped and no fixed bit is ignored (R63 to R65; the fixed-zero bits are the spec's decision D11, log 18, and
the values of eleven rows the spec's from general knowledge, log 17). -/
def Obligations.DecodedWordIsItsEncoding : Prop :=
  ∀ (w : Word) (i : Instr), decode w = some i → i.wellFormed = true ∧ encode i = w

/-- The decoder answers the row of the opcode table that holds the word, and Invalid where no row does (R73;
the spec's decision D11, log 18; the values of eleven rows are from general knowledge, log 17). -/
def Obligations.DecodeFollowsOpcodeTable : Prop :=
  ∀ w : Word,
    (∀ r ∈ opcodeTable, w &&& r.mask = r.pattern →
      ∃ i, decode w = some i ∧ i.mnemonic = r.mnemonic) ∧
    ((∀ r ∈ opcodeTable, w &&& r.mask ≠ r.pattern) → decode w = none)

/-- The 25 rows' patterns are pairwise disjoint (R73, derived by the spec; the values of eleven rows are from
general knowledge, log 17). -/
def Obligations.NoWordMatchesTwoRows : Prop :=
  ∀ (w : Word) (r q : OpcodeRow), r ∈ opcodeTable → q ∈ opcodeTable →
    w &&& r.mask = r.pattern → w &&& q.mask = q.pattern → r = q

/-- Words written out in the worked examples of 40 to 47 decode to their instructions: those of ADDI, BNE, JAL, LW,
SW and SYSCALL rest on opcode values the spec supplies from general knowledge (G2, R66; log 17). The last word,
a JR with hint 10000 from 95_test_vectors 2.5, decodes to nothing: the spec's decision D12 (log 18). -/
def Obligations.WorkedExampleWordsDecode : Prop :=
  decode 0x00221820#32 = some (.add 3 1 2) ∧ decode 0x2022FFFF#32 = some (.addi 2 1 0xFFFF) ∧
  decode 0x00221824#32 = some (.and 3 1 2) ∧ decode 0x1420FFFE#32 = some (.bne 1 0 0xFFFE) ∧
  decode 0x0022001A#32 = some (.div 1 2) ∧ decode 0x0C100040#32 = some (.jal 0x0100040) ∧
  decode 0x8C220004#32 = some (.lw 2 4 1) ∧ decode 0xAC220008#32 = some (.sw 2 8 1) ∧
  decode 0x00221902#32 = some (.rotr 3 2 4) ∧ decode 0x00021902#32 = some (.srl 3 2 4) ∧
  decode 0x03FFFFCC#32 = some (.syscall 0xFFFFF) ∧ decode 0x03E00408#32 = none

/-- The branch offset is the field times 4, a multiple of 4 from -131072 to 131068, added to the address
of the delay-slot instruction (R68). -/
def Obligations.BranchOffsetIsFourTimesField : Prop :=
  ∀ (pc : Word) (offset : BitVec 16),
    (branchOffset offset).toInt = 4 * offset.toInt ∧
    -131072 ≤ (branchOffset offset).toInt ∧ (branchOffset offset).toInt ≤ 131068 ∧
    branchTarget pc offset = pc + 4#32 + branchOffset offset

/-- The effective address of LW and SW is the signed sum of base and offset, modulo 2^32 (R150). -/
def Obligations.EffectiveAddressIsSignedSum : Prop :=
  ∀ (offset : BitVec 16) (base : RegNum) (s : State),
    effectiveAddress offset base s = BitVec.ofInt 32 (offset.toInt + (s.x base).toInt)

/-! ### Arithmetic -/

/-- ADD: the exact sum, or Integer Overflow with nothing written (R101). -/
def Obligations.AddWritesExactSumOrTraps : Prop :=
  ∀ (rd rs rt : RegNum) (s : State),
    Encodes (.add rd rs rt) (0b000000#6 ++ rs ++ rt ++ rd ++ 0b00000#5 ++ 0b100000#6) ∧
    (FitsWord ((s.x rs).toInt + (s.x rt).toInt) →
      ∃ t, exec (.add rd rs rt) s = .next t ∧
        OnlyWrites rd (BitVec.ofInt 32 ((s.x rs).toInt + (s.x rt).toInt)) s t) ∧
    (¬ FitsWord ((s.x rs).toInt + (s.x rt).toInt) →
      exec (.add rd rs rt) s = .fault (trapped .integerOverflow none s))

/-- ADDI: the exact sum with the sign-extended immediate, or Integer Overflow with nothing written (the
ADDI page; its encoding is the spec's from general knowledge, log 17). -/
def Obligations.AddiWritesExactSumOrTraps : Prop :=
  ∀ (rt rs : RegNum) (imm : BitVec 16) (s : State),
    Encodes (.addi rt rs imm) (0b001000#6 ++ rs ++ rt ++ imm) ∧
    (FitsWord ((s.x rs).toInt + imm.toInt) →
      ∃ t, exec (.addi rt rs imm) s = .next t ∧
        OnlyWrites rt (BitVec.ofInt 32 ((s.x rs).toInt + imm.toInt)) s t) ∧
    (¬ FitsWord ((s.x rs).toInt + imm.toInt) →
      exec (.addi rt rs imm) s = .fault (trapped .integerOverflow none s))

/-- SUB: the exact difference, or Integer Overflow with nothing written (R105). -/
def Obligations.SubWritesExactDifferenceOrTraps : Prop :=
  ∀ (rd rs rt : RegNum) (s : State),
    Encodes (.sub rd rs rt) (0b000000#6 ++ rs ++ rt ++ rd ++ 0b00000#5 ++ 0b100010#6) ∧
    (FitsWord ((s.x rs).toInt - (s.x rt).toInt) →
      ∃ t, exec (.sub rd rs rt) s = .next t ∧
        OnlyWrites rd (BitVec.ofInt 32 ((s.x rs).toInt - (s.x rt).toInt)) s t) ∧
    (¬ FitsWord ((s.x rs).toInt - (s.x rt).toInt) →
      exec (.sub rd rs rt) s = .fault (trapped .integerOverflow none s))

/-- LUI: the immediate times 2^16, every bit of the old value replaced (the LUI page; its encoding is the
spec's from general knowledge, log 17). -/
def Obligations.LuiLoadsUpperHalf : Prop :=
  ∀ (rt : RegNum) (imm : BitVec 16) (s : State),
    Encodes (.lui rt imm) (0b001111#6 ++ 0b00000#5 ++ rt ++ imm) ∧
    ∃ t v, exec (.lui rt imm) s = .next t ∧ v.toNat = imm.toNat * 2 ^ 16 ∧ OnlyWrites rt v s t

/-- SLT: 1 if the signed values are in that order and otherwise 0, and never a trap (R104). -/
def Obligations.SltComparesSigned : Prop :=
  ∀ (rd rs rt : RegNum) (s : State),
    Encodes (.slt rd rs rt) (0b000000#6 ++ rs ++ rt ++ rd ++ 0b00000#5 ++ 0b101010#6) ∧
    ∃ t, exec (.slt rd rs rt) s = .next t ∧
      OnlyWrites rd (if (s.x rs).toInt < (s.x rt).toInt then 1#32 else 0#32) s t

/-! ### Logic and shifts -/

/-- AND, OR, XOR: bit by bit, with no carry and no trap (R110). -/
def Obligations.LogicalOperationsAreBitwise : Prop :=
  ∀ (rd rs rt : RegNum) (s : State),
    (∃ t v, exec (.and rd rs rt) s = .next t ∧ OnlyWrites rd v s t ∧
      ∀ i < 32, v.getLsbD i = ((s.x rs).getLsbD i && (s.x rt).getLsbD i)) ∧
    (∃ t v, exec (.or rd rs rt) s = .next t ∧ OnlyWrites rd v s t ∧
      ∀ i < 32, v.getLsbD i = ((s.x rs).getLsbD i || (s.x rt).getLsbD i)) ∧
    (∃ t v, exec (.xor rd rs rt) s = .next t ∧ OnlyWrites rd v s t ∧
      ∀ i < 32, v.getLsbD i = ((s.x rs).getLsbD i ^^ (s.x rt).getLsbD i))

/-- AND, OR, XOR: the first source in bits 25:21, the second in 20:16, the destination in 15:11, and each its own
function code (41_logical, R63; the codes of OR and XOR are the spec's from general knowledge, log 17). -/
def Obligations.LogicalEncodingsPlaceTheirFields : Prop :=
  ∀ rd rs rt : RegNum,
    Encodes (.and rd rs rt) (0b000000#6 ++ rs ++ rt ++ rd ++ 0b00000#5 ++ 0b100100#6) ∧
    Encodes (.or rd rs rt) (0b000000#6 ++ rs ++ rt ++ rd ++ 0b00000#5 ++ 0b100101#6) ∧
    Encodes (.xor rd rs rt) (0b000000#6 ++ rs ++ rt ++ rd ++ 0b00000#5 ++ 0b100110#6)

/-- SLL: bit `i` of the result is bit `i - sa` of the source, and zero below (R163). -/
def Obligations.SllShiftsInZeros : Prop :=
  ∀ (rd rt : RegNum) (sa : BitVec 5) (s : State),
    Encodes (.sll rd rt sa) (0b000000#6 ++ 0b00000#5 ++ rt ++ rd ++ sa ++ 0b000000#6) ∧
    ∃ t v, exec (.sll rd rt sa) s = .next t ∧ OnlyWrites rd v s t ∧
      ∀ i < 32, v.getLsbD i = (decide (sa.toNat ≤ i) && (s.x rt).getLsbD (i - sa.toNat))

/-- SRL: bit `i` of the result is bit `i + sa` of the source, and zero above (R164). -/
def Obligations.SrlShiftsInZeros : Prop :=
  ∀ (rd rt : RegNum) (sa : BitVec 5) (s : State),
    Encodes (.srl rd rt sa) (0b000000#6 ++ 0b00000#5 ++ rt ++ rd ++ sa ++ 0b000010#6) ∧
    ∃ t v, exec (.srl rd rt sa) s = .next t ∧ OnlyWrites rd v s t ∧
      ∀ i < 32, v.getLsbD i = (decide (i + sa.toNat < 32) && (s.x rt).getLsbD (i + sa.toNat))

/-- ROTR: bit `i` of the result is bit `(i + sa) mod 32` of the source (the ROTR page, with the spec's
decision that the architecture is Release 2, log 14). -/
def Obligations.RotrRotatesEveryBit : Prop :=
  ∀ (rd rt : RegNum) (sa : BitVec 5) (s : State),
    Encodes (.rotr rd rt sa) (0b000000#6 ++ 0b00001#5 ++ rt ++ rd ++ sa ++ 0b000010#6) ∧
    ∃ t v, exec (.rotr rd rt sa) s = .next t ∧ OnlyWrites rd v s t ∧
      ∀ i < 32, v.getLsbD i = (s.x rt).getLsbD ((i + sa.toNat) % 32)

/-- NOP and SSNOP: spellings of SLL with destination register 0, which change nothing but `pc` (R160,
R161). -/
def Obligations.NopAndSsnopAreSll : Prop :=
  encode .nop = 0x00000000#32 ∧ decode 0x00000000#32 = some (.sll 0#5 0#5 0#5) ∧
  encode .ssnop = 0x00000040#32 ∧ decode 0x00000040#32 = some (.sll 0#5 0#5 1#5) ∧
  ∀ s : State,
    exec .nop s = exec (.sll 0#5 0#5 0#5) s ∧ exec .ssnop s = exec (.sll 0#5 0#5 1#5) s ∧
    (∃ t, exec .nop s = .next t ∧ OnlyMovesOn .none s t) ∧
    (∃ t, exec .ssnop s = .next t ∧ OnlyMovesOn .none s t)

/-! ### Multiply, divide, HI and LO -/

/-- MULT: HI and LO together are the exact signed product (R134). -/
def Obligations.MultLeavesExactProduct : Prop :=
  ∀ (rs rt : RegNum) (s : State),
    Encodes (.mult rs rt) (0b000000#6 ++ rs ++ rt ++ 0b00000#5 ++ 0b00000#5 ++ 0b011000#6) ∧
    ∃ t, exec (.mult rs rt) s = .next t ∧
      (t.hi ++ t.lo : BitVec 64).toInt = (s.x rs).toInt * (s.x rt).toInt ∧ OnlyWritesHiLo s t

/-- DIV has one encoding, whatever the divisor. By a divisor that is not zero: dividend = divisor × LO + HI, HI
smaller than the divisor and with the dividend's sign, except for -2^31 / -1, where LO is 0x80000000 and HI
is 0 (the spec's decision D10, logs 11 and 12). -/
def Obligations.DivLeavesQuotientAndRemainder : Prop :=
  ∀ (rs rt : RegNum) (s : State),
    Encodes (.div rs rt) (0b000000#6 ++ rs ++ rt ++ 0b00000#5 ++ 0b00000#5 ++ 0b011010#6) ∧
    (s.x rt ≠ 0#32 →
      ∃ t, exec (.div rs rt) s = .next t ∧ OnlyWritesHiLo s t ∧
        if s.x rs = 0x80000000#32 ∧ s.x rt = 0xFFFFFFFF#32 then t.lo = 0x80000000#32 ∧ t.hi = 0#32
        else
          (s.x rs).toInt = (s.x rt).toInt * t.lo.toInt + t.hi.toInt ∧
          t.hi.toInt.natAbs < (s.x rt).toInt.natAbs ∧
          (0 ≤ (s.x rs).toInt → 0 ≤ t.hi.toInt) ∧ ((s.x rs).toInt ≤ 0 → t.hi.toInt ≤ 0))

/-- DIV by zero completes, with HI and LO at the draw's free values, whatever they are, and the next draw
is another one (R131, the spec's decision D9, log 10). -/
def Obligations.DivByZeroCompletesWithFreeValues : Prop :=
  ∀ (rs rt : RegNum) (s : State), s.x rt = 0#32 →
    ∃ t, exec (.div rs rt) s = .next t ∧
      t.hi = Config.divZeroHi s.draws ∧ t.lo = Config.divZeroLo s.draws ∧
      t.draws = s.draws + 1 ∧ t.params = s.params ∧
      RegistersKept s t ∧ MemoryKept s t ∧ MovesOn .none s t

/-- MFHI and MFLO copy HI and LO, and leave them unchanged (R132, R133). -/
def Obligations.MovesCopyHiAndLo : Prop :=
  ∀ (rd : RegNum) (s : State),
    Encodes (.mfhi rd) (0b000000#6 ++ 0b00000#5 ++ 0b00000#5 ++ rd ++ 0b00000#5 ++ 0b010000#6) ∧
    Encodes (.mflo rd) (0b000000#6 ++ 0b00000#5 ++ 0b00000#5 ++ rd ++ 0b00000#5 ++ 0b010010#6) ∧
    (∃ t, exec (.mfhi rd) s = .next t ∧ OnlyWrites rd s.hi s t) ∧
    (∃ t, exec (.mflo rd) s = .next t ∧ OnlyWrites rd s.lo s t)

/-- A move right after a MULT reads the product just made: no result latency (43_muldiv, R136; 70, R216). -/
def Obligations.MoveAfterMultReadsProduct : Prop :=
  ∀ (rs rt rd : RegNum) (s : State), rd ≠ 0#5 →
    ∃ t u v, exec (.mult rs rt) s = .next t ∧
      exec (.mflo rd) t = .next u ∧ exec (.mfhi rd) t = .next v ∧
      ((v.x rd).toInt * 2 ^ 32 + (u.x rd).toNat : Int) = (s.x rs).toInt * (s.x rt).toInt

/-- SLT, MULT and DIV complete in every state: they never trap, a zero divisor and a divide overflow
included (R182). -/
def Obligations.SltMultDivNeverTrap : Prop :=
  ∀ (rd rs rt : RegNum) (s : State),
    (∃ t, exec (.slt rd rs rt) s = .next t) ∧ (∃ t, exec (.mult rs rt) s = .next t) ∧
    (∃ t, exec (.div rs rt) s = .next t)

/-! ### Branches and jumps -/

/-- BEQ and BNE, outside a delay slot: they set only `new_delay`, taken exactly when the registers are
equal, or unequal, with the target counted from the delay slot (42_branch; the condition's time is G7's,
log 23, and BNE's encoding is from general knowledge, log 17). -/
def Obligations.BeqBneBranchOnEquality : Prop :=
  ∀ (rs rt : RegNum) (offset : BitVec 16) (s : State), s.delay = .none →
    Encodes (.beq rs rt offset) (0b000100#6 ++ rs ++ rt ++ offset) ∧
    Encodes (.bne rs rt offset) (0b000101#6 ++ rs ++ rt ++ offset) ∧
    (∃ t, exec (.beq rs rt offset) s = .next t ∧
      OnlyMovesOn (if s.x rs = s.x rt then .taken (branchTo s offset) else .notTaken) s t) ∧
    (∃ t, exec (.bne rs rt offset) s = .next t ∧
      OnlyMovesOn (if s.x rs = s.x rt then .notTaken else .taken (branchTo s offset)) s t)

/-- BGTZ, outside a delay slot: taken exactly when the register is positive (R126). -/
def Obligations.BgtzBranchesWhenPositive : Prop :=
  ∀ (rs : RegNum) (offset : BitVec 16) (s : State), s.delay = .none →
    Encodes (.bgtz rs offset) (0b000111#6 ++ rs ++ 0b00000#5 ++ offset) ∧
    ∃ t, exec (.bgtz rs offset) s = .next t ∧
      OnlyMovesOn (if 0 < (s.x rs).toInt then .taken (branchTo s offset) else .notTaken) s t

/-- BLEZ, outside a delay slot: taken exactly when the sign bit is 1 or the value is zero, the complement
of BGTZ (42_branch; the condition's time is G7's, log 23, the encoding from general knowledge, log 17). -/
def Obligations.BlezBranchesWhenNotPositive : Prop :=
  ∀ (rs : RegNum) (offset : BitVec 16) (s : State), s.delay = .none →
    Encodes (.blez rs offset) (0b000110#6 ++ rs ++ 0b00000#5 ++ offset) ∧
    ∃ t, exec (.blez rs offset) s = .next t ∧
      OnlyMovesOn (if (s.x rs).getLsbD 31 = true ∨ s.x rs = 0#32
        then .taken (branchTo s offset) else .notTaken) s t

/-- J and JAL, outside a delay slot: the target lies in the 256 MB region of the delay slot, at 4 times
`instr_index`; JAL writes the address of the second instruction after it to register 31 at once (44_jump;
the encodings are the spec's from general knowledge, log 17). -/
def Obligations.JumpsGoWithinTheRegion : Prop :=
  ∀ (index : BitVec 26) (s : State), s.delay = .none →
    Encodes (.j index) (0b000010#6 ++ index) ∧ Encodes (.jal index) (0b000011#6 ++ index) ∧
    ∃ target : Word,
      target.toNat = (s.pc + 4#32).toNat / 2 ^ 28 * 2 ^ 28 + 4 * index.toNat ∧
      (∃ t, exec (.j index) s = .next t ∧ OnlyMovesOn (.taken target) s t) ∧
      (∃ t, exec (.jal index) s = .next t ∧ RegisterWritten 31#5 (s.pc + 8#32) s t ∧
        HiLoKept s t ∧ MemoryKept s t ∧ LaunchKept s t ∧ MovesOn (.taken target) s t)

/-- JR, outside a delay slot: all 32 bits of the register, aligned or not, become the pending target (44_jump,
with the spec's decision that MIPS16e is absent, log 15). -/
def Obligations.JrJumpsToWholeRegister : Prop :=
  ∀ (rs : RegNum) (s : State), s.delay = .none →
    Encodes (.jr rs) (0b000000#6 ++ rs ++ 0b00000#5 ++ 0b00000#5 ++ 0b00000#5 ++ 0b001000#6) ∧
    ∃ t, exec (.jr rs) s = .next t ∧ OnlyMovesOn (.taken (s.x rs)) s t

/-- A JR and its delay-slot instruction complete, `pc` becomes the register's value, and if that is
misaligned the next step raises Address Error with it (R143). -/
def Obligations.MisalignedJrTargetTrapsAtItsFetch : Prop :=
  ∀ (rs : RegNum) (s : State), s.delay = .none →
    ∃ t, exec (.jr rs) s = .next t ∧
      ∀ u, step t = .next u →
        u.pc = s.x rs ∧ u.delay = .none ∧
        ((s.x rs).toNat % 4 ≠ 0 →
          step u = .fault (.trap ⟨.addressError, u, s.x rs, false, some (s.x rs)⟩))

/-- An instruction ends as UNPREDICTABLE exactly when it is a branch or jump in a delay slot, taken or
not (R122, R29). -/
def Obligations.BranchInDelaySlotIsUnpredictable : Prop :=
  ∀ (i : Instr) (s s' : State) (r : UnpredictableReason),
    exec i s = .fault (.unpredictable r s') ↔
      isBranchOrJump i = true ∧ s.delay ≠ .none ∧ r = .branchInDelaySlot ∧ s' = s

/-- The four branches write no general register, HI, LO or memory and raise no exception of their own, and an
exception in the step after one is reported as in a delay slot (R124). -/
def Obligations.BranchesWriteNothingAndNeverTrap : Prop :=
  ∀ (rs rt : RegNum) (offset : BitVec 16) (s : State) (i : Instr),
    (i = .beq rs rt offset ∨ i = .bne rs rt offset ∨ i = .bgtz rs offset ∨ i = .blez rs offset) →
    (s.delay = .none → ∃ t, exec i s = .next t) ∧
    (∀ tr, exec i s ≠ .fault (.trap tr)) ∧
    ∀ t, exec i s = .next t →
      RegistersKept s t ∧ HiLoKept s t ∧ MemoryKept s t ∧
      ∀ tr, step t = .fault (.trap tr) → tr.inDelaySlot = true

/-! ### Loads and stores -/

/-- LW of an aligned admitted address: the register takes the word there (45_loadstore; the encoding is the
spec's from general knowledge, log 17). -/
def Obligations.LwLoadsTheAddressedWord : Prop :=
  ∀ (rt base : RegNum) (offset : BitVec 16) (s : State) (a : Word),
    effectiveAddress offset base s = a → a.toNat % 4 = 0 → s.inData a = true →
    Encodes (.lw rt offset base) (0b100011#6 ++ base ++ rt ++ offset) ∧
    ∃ t, exec (.lw rt offset base) s = .next t ∧
      OnlyWrites rt (wordOfBytes s.params.bigEndian (s.mem.read a.toNat) (s.mem.read (a.toNat + 1))
        (s.mem.read (a.toNat + 2)) (s.mem.read (a.toNat + 3))) s t

/-- SW to an aligned admitted address: the four bytes there take the register's value in the memory's byte
order, and no other byte and no register changes (45_loadstore; encoding log 17). -/
def Obligations.SwStoresOneWord : Prop :=
  ∀ (rt base : RegNum) (offset : BitVec 16) (s : State) (a : Word),
    effectiveAddress offset base s = a → a.toNat % 4 = 0 → s.inData a = true →
    Encodes (.sw rt offset base) (0b101011#6 ++ base ++ rt ++ offset) ∧
    ∃ t, exec (.sw rt offset base) s = .next t ∧
      wordOfBytes s.params.bigEndian (t.mem.read a.toNat) (t.mem.read (a.toNat + 1))
        (t.mem.read (a.toNat + 2)) (t.mem.read (a.toNat + 3)) = s.x rt ∧
      (∀ b : Nat, b < a.toNat ∨ a.toNat + 4 ≤ b → t.mem.read b = s.mem.read b) ∧
      RegistersKept s t ∧ HiLoKept s t ∧ LaunchKept s t ∧ MovesOn .none s t

/-- A misaligned LW, SW or fetch raises Address Error with the address, the state unchanged, whether or not
the address is admitted (R43, R27). -/
def Obligations.MisalignedAccessRaisesAddressError : Prop :=
  ∀ (rt base : RegNum) (offset : BitVec 16) (s : State) (a : Word),
    effectiveAddress offset base s = a →
    (a.toNat % 4 ≠ 0 →
      exec (.lw rt offset base) s = .fault (trapped .addressError (some a) s) ∧
      exec (.sw rt offset base) s = .fault (trapped .addressError (some a) s)) ∧
    (s.pc.toNat % 4 ≠ 0 → step s = .fault (trapped .addressError (some s.pc) s))

/-- An aligned LW or SW outside DataRegion ends the run, the state unchanged; code is never admitted (20_memory,
the spec's decisions D6 and D15, logs 20 and 22). -/
def Obligations.AccessOutsideDataRegionIsNotAdmitted : Prop :=
  ∀ (rt base : RegNum) (offset : BitVec 16) (s : State) (a : Word),
    effectiveAddress offset base s = a → a.toNat % 4 = 0 →
    (s.inCode a = true → s.inData a = false) ∧
    (s.inData a = false →
      exec (.lw rt offset base) s = .fault (.accessNotAdmitted .load a s) ∧
      exec (.sw rt offset base) s = .fault (.accessNotAdmitted .store a s))

/-- A LW from the address just stored to returns the stored value (20_memory, the spec's decision D14, log
21). -/
def Obligations.LoadAfterStoreReturnsTheValue : Prop :=
  ∀ (rt r base : RegNum) (offset : BitVec 16) (s : State),
    aligned (effectiveAddress offset base s) = true →
    s.inData (effectiveAddress offset base s) = true →
    ∃ t u, exec (.sw rt offset base) s = .next t ∧ exec (.lw r offset base) t = .next u ∧
      RegisterWritten r (s.x rt) s u

/-! ### SYSCALL and the record of a stop -/

/-- SYSCALL raises System Call in every state and for every code, with nothing written (47_system; the
encoding is the spec's from general knowledge, log 17, the terminal outcome its decision D7, log 1). -/
def Obligations.SyscallAlwaysRaisesSystemCall : Prop :=
  ∀ (code : BitVec 20) (s : State),
    Encodes (.syscall code) (0b000000#6 ++ code ++ 0b001100#6) ∧
    exec (.syscall code) s = .fault (trapped .systemCall none s)

/-- Every stop records the state before the instruction, whole: exceptions are precise (60_exceptions, the
spec's decisions D7, D8, D11; log 1). -/
def Obligations.StoppedStepRecordsTheStateBefore : Prop :=
  ∀ s : State,
    (∀ tr, step s = .fault (.trap tr) →
      tr.state = s ∧ tr.pc = s.pc ∧ tr.inDelaySlot = decide (s.delay ≠ .none) ∧
      (tr.vaddr.isSome = true ↔ tr.exc = .addressError)) ∧
    (∀ r s', step s = .fault (.unpredictable r s') → s' = s) ∧
    (∀ k a s', step s = .fault (.accessNotAdmitted k a s') → s' = s) ∧
    (∀ r, step s = .refused r → r = .notInScope (wordAtPc s) s)

/-- Which instruction raises which exception (60_exceptions, table of R181): no other pair occurs. -/
def Obligations.EachExceptionHasItsInstructions : Prop :=
  ∀ (i : Instr) (s : State) (tr : Trap), exec i s = .fault (.trap tr) →
    (tr.exc = .integerOverflow ∧ ((∃ rd rs rt, i = .add rd rs rt) ∨ (∃ rt rs imm, i = .addi rt rs imm) ∨
      ∃ rd rs rt, i = .sub rd rs rt)) ∨
    (tr.exc = .addressError ∧ ((∃ rt off base, i = .lw rt off base) ∨ ∃ rt off base, i = .sw rt off base)) ∨
    (tr.exc = .systemCall ∧ ∃ code, i = .syscall code)

/-! ### The instruction cycle -/

/-- When the bytes at `pc`, aligned and in CodeRegion, decode to an instruction, the step is that
instruction's meaning (10_state, the spec's decision D17, log 23). -/
def Obligations.StepRunsTheDecodedInstruction : Prop :=
  ∀ (s : State) (i : Instr), s.pc.toNat % 4 = 0 → s.inCode s.pc = true →
    decode (wordAtPc s) = some i → step s = exec i s

/-- An aligned fetch outside CodeRegion, or a word that is no instruction of D0, stops before anything runs
(20_memory and 30_encoding, the spec's decisions D6, D11, D20; logs 18, 20, 24). -/
def Obligations.UnfetchableOrInvalidWordStops : Prop :=
  ∀ s : State, s.pc.toNat % 4 = 0 →
    (s.inCode s.pc = false → step s = .fault (.accessNotAdmitted .fetch s.pc s)) ∧
    (s.inCode s.pc = true → decode (wordAtPc s) = none →
      step s = .refused (.notInScope (wordAtPc s) s))

/-- An instruction writes no register, HI or LO other than those of the table of R23, and no byte of memory but, for
SW, the four at its effective address (45_loadstore, the SW page); and what it leaves depends on no register
other than the table's sources, on HI only for MFHI and on LO only for MFLO. In this second part DIV by zero leaves both states the same HI and LO because their draw counters
are equal: that is the model's choice (log 10), where R131 puts a draw under no law. -/
def Obligations.ReadsAndWritesFollowTheTable : Prop :=
  ∀ (i : Instr) (s t : State), exec i s = .next t →
    (∀ r, t.x r ≠ s.x r → destination i = some r) ∧
    ((t.hi ≠ s.hi ∨ t.lo ≠ s.lo) → writesHiLo i = true) ∧
    (∀ a, t.mem.read a ≠ s.mem.read a → ∃ rt off base, i = .sw rt off base ∧
      (effectiveAddress off base s).toNat ≤ a ∧ a < (effectiveAddress off base s).toNat + 4) ∧
    ∀ s' : State, s'.pc = s.pc → s'.delay = s.delay → s'.mem = s.mem → s'.params = s.params →
      s'.draws = s.draws → (∀ r ∈ sources i, s'.x r = s.x r) →
      (readsHi i = true → s'.hi = s.hi) → (readsLo i = true → s'.lo = s.lo) →
      ∃ t', exec i s' = .next t' ∧ t'.pc = t.pc ∧ t'.delay = t.delay ∧ t'.mem = t.mem ∧
        (∀ r, destination i = some r → t'.x r = t.x r) ∧
        (writesHiLo i = true → t'.hi = t.hi ∧ t'.lo = t.lo)

/-- How each step advances: a branch or jump is not in a delay slot, leaves one pending and goes to the next
word; any other instruction completes the pending transfer (10_state, derived by the spec from its
instruction cycle, log 23). -/
def Obligations.EveryStepFollowsTheDelayDiscipline : Prop :=
  ∀ s t : State, step s = .next t →
    ∃ i, decode (wordAtPc s) = some i ∧
      (isBranchOrJump i = true → s.delay = .none ∧ t.delay ≠ .none ∧ t.pc = s.pc + 4#32) ∧
      (isBranchOrJump i = false → t.delay = .none ∧ t.pc = following s)

/-- Two steps of a transfer: the delay-slot instruction runs, then control is at the target if the branch
was taken, and otherwise two instructions past the branch (10_state; 70, R214; log 23). -/
def Obligations.DelaySlotRunsBeforeTheTarget : Prop :=
  ∀ s t u : State, step s = .next t → t.delay ≠ .none → step t = .next u →
    u.delay = .none ∧
    (∀ a, t.delay = .taken a → u.pc = a) ∧ (t.delay = .notTaken → u.pc = s.pc + 8#32)

/-- Every transfer leaves aligned addresses, unless a JR takes a misaligned register (10_state, derived by
the spec, log 23). -/
def Obligations.OnlyJrCanMisalignThePc : Prop :=
  ∀ s t : State, (∀ a, s.delay = .taken a → a.toNat % 4 = 0) → step s = .next t →
    t.pc.toNat % 4 = 0 ∧
    ((∀ a, t.delay = .taken a → a.toNat % 4 = 0) ∨
      ∃ rs, decode (wordAtPc s) = some (.jr rs) ∧ t.delay = .taken (s.x rs) ∧
        (s.x rs).toNat % 4 ≠ 0)

/-! ### Invariants of a run -/

/-- Every step keeps memory canonical (log 9) and the slot of register 0 at zero (log 13). -/
def Obligations.StepKeepsTheInvariant : Prop :=
  ∀ s t : State, s.Inv → step s = .next t → t.Inv

/-- Every launch, whatever the host supplies, starts in the invariant, with `pc` at the entry point, nothing
pending, and the registers, HI, LO and parameters it gave; State.reset is one (10_state and 70, the spec's
decision D16, logs 5 to 9). -/
def Obligations.EveryLaunchMeetsTheInvariant : Prop :=
  (∀ l : Launch, (State.ofLaunch l).Inv ∧ (State.ofLaunch l).pc = l.entryPC ∧
    (State.ofLaunch l).delay = .none ∧ (State.ofLaunch l).params = l.params ∧
    (State.ofLaunch l).hi = l.hi ∧ (State.ofLaunch l).lo = l.lo ∧
    ∀ r : RegNum, (State.ofLaunch l).x r = if r = 0#5 then 0#32 else l.gpr[r.toNat]'r.isLt) ∧
  State.reset.Inv ∧ State.reset.delay = .none ∧ State.reset.x 0#5 = 0#32

/-- In every run, from any state, the launch parameters stay and program text never changes: a fetch always
returns the launch image (20_memory, the spec's decision D15, log 22). -/
def Obligations.ProgramTextNeverChanges : Prop :=
  ∀ (k : Nat) (s t : State), Host.Core.run Sys2Proof.core k s = .next t →
    t.params = s.params ∧ ∀ a : Word, s.inCode a = true → t.inCode a = true ∧ t.word a = s.word a

/-- The byte order is unobservable: states that hold the same words under either order step alike, and
their next states hold the same words again (20_memory, the spec's decision D5, log 8). For DIV by zero this
rests on the model's choice that equal draw counters give equal values (log 10). -/
def Obligations.ByteOrderIsUnobservable : Prop :=
  ∀ s s' t : State, SameButByteOrder s s' → step s = .next t →
    ∃ t', step s' = .next t' ∧ SameButByteOrder t t'
end

