-- ==== Sys2Proof/Laws/Decode.lean ====
section
/-! SUPPORT. The fields of a word built in each format (R61, R62). -/

namespace Sys2Proof

variable (op fn : BitVec 6) (a b c d : BitVec 5) (imm : BitVec 16) (index : BitVec 26)
  (code : BitVec 20)

/-- Take a field out of the upper part of a word. -/
theorem extract_high {n m : Nat} (x : BitVec n) (y : BitVec m) (lo len : Nat) (h : m ≤ lo) :
    (x ++ y).extractLsb' lo len = x.extractLsb' (lo - m) len :=
  BitVec.extractLsb'_append_eq_of_le h

/-- Take a field out of the lower part of a word. -/
theorem extract_low {n m : Nat} (x : BitVec n) (y : BitVec m) (lo len : Nat) (h : lo + len ≤ m) :
    (x ++ y).extractLsb' lo len = y.extractLsb' lo len :=
  BitVec.extractLsb'_append_eq_of_add_le h

@[simp] theorem fieldOpcode_formatR : fieldOpcode (formatR a b c d fn) = 0b000000#6 := by
  refine (extract_high (0b000000#6 ++ a ++ b ++ c ++ d) fn _ _ (by decide)).trans ?_
  refine (extract_high (0b000000#6 ++ a ++ b ++ c) d _ _ (by decide)).trans ?_
  refine (extract_high (0b000000#6 ++ a ++ b) c _ _ (by decide)).trans ?_
  refine (extract_high (0b000000#6 ++ a) b _ _ (by decide)).trans ?_
  refine (extract_high (0b000000#6) a _ _ (by decide)).trans ?_
  simp

@[simp] theorem fieldRs_formatR : fieldRs (formatR a b c d fn) = a := by
  refine (extract_high (0b000000#6 ++ a ++ b ++ c ++ d) fn _ _ (by decide)).trans ?_
  refine (extract_high (0b000000#6 ++ a ++ b ++ c) d _ _ (by decide)).trans ?_
  refine (extract_high (0b000000#6 ++ a ++ b) c _ _ (by decide)).trans ?_
  refine (extract_high (0b000000#6 ++ a) b _ _ (by decide)).trans ?_
  refine (extract_low (0b000000#6) a _ _ (by decide)).trans ?_
  simp

@[simp] theorem fieldRt_formatR : fieldRt (formatR a b c d fn) = b := by
  refine (extract_high (0b000000#6 ++ a ++ b ++ c ++ d) fn _ _ (by decide)).trans ?_
  refine (extract_high (0b000000#6 ++ a ++ b ++ c) d _ _ (by decide)).trans ?_
  refine (extract_high (0b000000#6 ++ a ++ b) c _ _ (by decide)).trans ?_
  refine (extract_low (0b000000#6 ++ a) b _ _ (by decide)).trans ?_
  simp

@[simp] theorem fieldRd_formatR : fieldRd (formatR a b c d fn) = c := by
  refine (extract_high (0b000000#6 ++ a ++ b ++ c ++ d) fn _ _ (by decide)).trans ?_
  refine (extract_high (0b000000#6 ++ a ++ b ++ c) d _ _ (by decide)).trans ?_
  refine (extract_low (0b000000#6 ++ a ++ b) c _ _ (by decide)).trans ?_
  simp

@[simp] theorem fieldSa_formatR : fieldSa (formatR a b c d fn) = d := by
  refine (extract_high (0b000000#6 ++ a ++ b ++ c ++ d) fn _ _ (by decide)).trans ?_
  refine (extract_low (0b000000#6 ++ a ++ b ++ c) d _ _ (by decide)).trans ?_
  simp

@[simp] theorem fieldFunct_formatR : fieldFunct (formatR a b c d fn) = fn := by
  refine (extract_low (0b000000#6 ++ a ++ b ++ c ++ d) fn _ _ (by decide)).trans ?_
  simp

@[simp] theorem fieldOpcode_formatI : fieldOpcode (formatI op a b imm) = op := by
  refine (extract_high (op ++ a ++ b) imm _ _ (by decide)).trans ?_
  refine (extract_high (op ++ a) b _ _ (by decide)).trans ?_
  refine (extract_high (op) a _ _ (by decide)).trans ?_
  simp

@[simp] theorem fieldRs_formatI : fieldRs (formatI op a b imm) = a := by
  refine (extract_high (op ++ a ++ b) imm _ _ (by decide)).trans ?_
  refine (extract_high (op ++ a) b _ _ (by decide)).trans ?_
  refine (extract_low (op) a _ _ (by decide)).trans ?_
  simp

@[simp] theorem fieldRt_formatI : fieldRt (formatI op a b imm) = b := by
  refine (extract_high (op ++ a ++ b) imm _ _ (by decide)).trans ?_
  refine (extract_low (op ++ a) b _ _ (by decide)).trans ?_
  simp

@[simp] theorem fieldImm_formatI : fieldImm (formatI op a b imm) = imm := by
  refine (extract_low (op ++ a ++ b) imm _ _ (by decide)).trans ?_
  simp

@[simp] theorem fieldOpcode_formatJ : fieldOpcode (formatJ op index) = op := by
  refine (extract_high (op) index _ _ (by decide)).trans ?_
  simp

@[simp] theorem fieldIndex_formatJ : fieldIndex (formatJ op index) = index := by
  refine (extract_low (op) index _ _ (by decide)).trans ?_
  simp

@[simp] theorem fieldOpcode_formatSyscall : fieldOpcode (formatSyscall code) = 0b000000#6 := by
  refine (extract_high (0b000000#6 ++ code) 0b001100#6 _ _ (by decide)).trans ?_
  refine (extract_high (0b000000#6) code _ _ (by decide)).trans ?_
  simp

@[simp] theorem fieldFunct_formatSyscall : fieldFunct (formatSyscall code) = 0b001100#6 := by
  refine (extract_low (0b000000#6 ++ code) 0b001100#6 _ _ (by decide)).trans ?_
  simp

@[simp] theorem fieldCode_formatSyscall : fieldCode (formatSyscall code) = code := by
  refine (extract_high (0b000000#6 ++ code) 0b001100#6 _ _ (by decide)).trans ?_
  refine (extract_low (0b000000#6) code _ _ (by decide)).trans ?_
  simp

/-! ### A word is its fields put together -/

/-- Two fields side by side are one field. -/
theorem extract_join (w : Word) (lo len mid n : Nat) (h : lo + len = mid) :
    w.extractLsb' mid n ++ w.extractLsb' lo len = w.extractLsb' lo (n + len) := by
  subst h
  exact BitVec.extractLsb'_append_extractLsb'_eq_extractLsb' (by omega)

theorem formatR_fields (w : Word) (h : fieldOpcode w = 0b000000#6) :
    formatR (fieldRs w) (fieldRt w) (fieldRd w) (fieldSa w) (fieldFunct w) = w := by
  unfold formatR
  rw [← h]
  unfold fieldOpcode fieldRs fieldRt fieldRd fieldSa fieldFunct
  rw [extract_join w 21 5 26 6 rfl, extract_join w 16 5 21 _ rfl, extract_join w 11 5 16 _ rfl,
    extract_join w 6 5 11 _ rfl, extract_join w 0 6 6 _ rfl]
  simp

theorem formatI_fields (w : Word) :
    formatI (fieldOpcode w) (fieldRs w) (fieldRt w) (fieldImm w) = w := by
  unfold formatI fieldOpcode fieldRs fieldRt fieldImm
  rw [extract_join w 21 5 26 6 rfl, extract_join w 16 5 21 _ rfl, extract_join w 0 16 16 _ rfl]
  simp

theorem formatJ_fields (w : Word) : formatJ (fieldOpcode w) (fieldIndex w) = w := by
  unfold formatJ fieldOpcode fieldIndex
  rw [extract_join w 0 26 26 6 rfl]
  simp

theorem formatSyscall_fields (w : Word) (h : fieldOpcode w = 0b000000#6)
    (hf : fieldFunct w = 0b001100#6) : formatSyscall (fieldCode w) = w := by
  unfold formatSyscall
  rw [← h, ← hf]
  unfold fieldOpcode fieldFunct fieldCode
  rw [extract_join w 6 20 26 6 rfl, extract_join w 0 6 6 _ rfl]
  simp

theorem ifZero_eq_some (zeros : Bool) (i j : Instr) :
    ifZero zeros i = some j ↔ zeros = true ∧ i = j := by
  unfold ifZero
  cases zeros <;> simp

end Sys2Proof
end

