-- ==== Sys2Proof/Laws/State.lean ====
section
/-! SUPPORT. What each update of the state does to each field, and to the accessors over them. -/

namespace Sys2Proof.Machine

open Sys2Proof

/-! ### `State.setX` -/

@[simp] theorem State.setX_hi (s : State) (i : RegNum) (v : Word) : (s.setX i v).hi = s.hi := rfl
@[simp] theorem State.setX_lo (s : State) (i : RegNum) (v : Word) : (s.setX i v).lo = s.lo := rfl
@[simp] theorem State.setX_pc (s : State) (i : RegNum) (v : Word) : (s.setX i v).pc = s.pc := rfl
@[simp] theorem State.setX_delay (s : State) (i : RegNum) (v : Word) : (s.setX i v).delay = s.delay := rfl
@[simp] theorem State.setX_mem (s : State) (i : RegNum) (v : Word) : (s.setX i v).mem = s.mem := rfl
@[simp] theorem State.setX_params (s : State) (i : RegNum) (v : Word) : (s.setX i v).params = s.params := rfl
@[simp] theorem State.setX_draws (s : State) (i : RegNum) (v : Word) : (s.setX i v).draws = s.draws := rfl
@[simp] theorem State.setX_word (s : State) (i : RegNum) (v : Word) (b : Word) : (s.setX i v).word b = s.word b := rfl
@[simp] theorem State.setX_inCode (s : State) (i : RegNum) (v : Word) (b : Word) : (s.setX i v).inCode b = s.inCode b := rfl
@[simp] theorem State.setX_inData (s : State) (i : RegNum) (v : Word) (b : Word) : (s.setX i v).inData b = s.inData b := rfl
@[simp] theorem State.setX_nextPc (s : State) (i : RegNum) (v : Word) : (s.setX i v).nextPc = s.nextPc := rfl
@[simp] theorem State.setX_inDelaySlot (s : State) (i : RegNum) (v : Word) :
    (s.setX i v).inDelaySlot = s.inDelaySlot := rfl

/-! ### `State.setHiLo` -/

@[simp] theorem State.setHiLo_gpr (s : State) (hi lo : Word) : (s.setHiLo hi lo).gpr = s.gpr := rfl
@[simp] theorem State.setHiLo_hi (s : State) (hi lo : Word) :
    (s.setHiLo hi lo).hi = hi := rfl
@[simp] theorem State.setHiLo_lo (s : State) (hi lo : Word) :
    (s.setHiLo hi lo).lo = lo := rfl
@[simp] theorem State.setHiLo_pc (s : State) (hi lo : Word) : (s.setHiLo hi lo).pc = s.pc := rfl
@[simp] theorem State.setHiLo_delay (s : State) (hi lo : Word) : (s.setHiLo hi lo).delay = s.delay := rfl
@[simp] theorem State.setHiLo_mem (s : State) (hi lo : Word) : (s.setHiLo hi lo).mem = s.mem := rfl
@[simp] theorem State.setHiLo_params (s : State) (hi lo : Word) : (s.setHiLo hi lo).params = s.params := rfl
@[simp] theorem State.setHiLo_draws (s : State) (hi lo : Word) : (s.setHiLo hi lo).draws = s.draws := rfl
@[simp] theorem State.setHiLo_x (s : State) (hi lo : Word) (r : RegNum) : (s.setHiLo hi lo).x r = s.x r := rfl
@[simp] theorem State.setHiLo_word (s : State) (hi lo : Word) (b : Word) : (s.setHiLo hi lo).word b = s.word b := rfl
@[simp] theorem State.setHiLo_inCode (s : State) (hi lo : Word) (b : Word) : (s.setHiLo hi lo).inCode b = s.inCode b := rfl
@[simp] theorem State.setHiLo_inData (s : State) (hi lo : Word) (b : Word) : (s.setHiLo hi lo).inData b = s.inData b := rfl
@[simp] theorem State.setHiLo_nextPc (s : State) (hi lo : Word) : (s.setHiLo hi lo).nextPc = s.nextPc := rfl
@[simp] theorem State.setHiLo_inDelaySlot (s : State) (hi lo : Word) :
    (s.setHiLo hi lo).inDelaySlot = s.inDelaySlot := rfl

/-! ### `State.drawHiLo` -/

@[simp] theorem State.drawHiLo_gpr (s : State) : (s.drawHiLo).gpr = s.gpr := rfl
@[simp] theorem State.drawHiLo_hi (s : State) :
    (s.drawHiLo).hi = Config.divZeroHi s.draws := rfl
@[simp] theorem State.drawHiLo_lo (s : State) :
    (s.drawHiLo).lo = Config.divZeroLo s.draws := rfl
@[simp] theorem State.drawHiLo_pc (s : State) : (s.drawHiLo).pc = s.pc := rfl
@[simp] theorem State.drawHiLo_delay (s : State) : (s.drawHiLo).delay = s.delay := rfl
@[simp] theorem State.drawHiLo_mem (s : State) : (s.drawHiLo).mem = s.mem := rfl
@[simp] theorem State.drawHiLo_params (s : State) : (s.drawHiLo).params = s.params := rfl
@[simp] theorem State.drawHiLo_draws (s : State) :
    (s.drawHiLo).draws = s.draws + 1 := rfl
@[simp] theorem State.drawHiLo_x (s : State) (r : RegNum) : (s.drawHiLo).x r = s.x r := rfl
@[simp] theorem State.drawHiLo_word (s : State) (b : Word) : (s.drawHiLo).word b = s.word b := rfl
@[simp] theorem State.drawHiLo_inCode (s : State) (b : Word) : (s.drawHiLo).inCode b = s.inCode b := rfl
@[simp] theorem State.drawHiLo_inData (s : State) (b : Word) : (s.drawHiLo).inData b = s.inData b := rfl
@[simp] theorem State.drawHiLo_nextPc (s : State) : (s.drawHiLo).nextPc = s.nextPc := rfl
@[simp] theorem State.drawHiLo_inDelaySlot (s : State) :
    (s.drawHiLo).inDelaySlot = s.inDelaySlot := rfl

/-! ### `State.setWord` -/

@[simp] theorem State.setWord_gpr (s : State) (a v : Word) : (s.setWord a v).gpr = s.gpr := rfl
@[simp] theorem State.setWord_hi (s : State) (a v : Word) : (s.setWord a v).hi = s.hi := rfl
@[simp] theorem State.setWord_lo (s : State) (a v : Word) : (s.setWord a v).lo = s.lo := rfl
@[simp] theorem State.setWord_pc (s : State) (a v : Word) : (s.setWord a v).pc = s.pc := rfl
@[simp] theorem State.setWord_delay (s : State) (a v : Word) : (s.setWord a v).delay = s.delay := rfl
@[simp] theorem State.setWord_mem (s : State) (a v : Word) :
    (s.setWord a v).mem = s.mem.writeWord s.params.bigEndian a v := rfl
@[simp] theorem State.setWord_params (s : State) (a v : Word) : (s.setWord a v).params = s.params := rfl
@[simp] theorem State.setWord_draws (s : State) (a v : Word) : (s.setWord a v).draws = s.draws := rfl
@[simp] theorem State.setWord_x (s : State) (a v : Word) (r : RegNum) : (s.setWord a v).x r = s.x r := rfl
@[simp] theorem State.setWord_inCode (s : State) (a v : Word) (b : Word) : (s.setWord a v).inCode b = s.inCode b := rfl
@[simp] theorem State.setWord_inData (s : State) (a v : Word) (b : Word) : (s.setWord a v).inData b = s.inData b := rfl
@[simp] theorem State.setWord_nextPc (s : State) (a v : Word) : (s.setWord a v).nextPc = s.nextPc := rfl
@[simp] theorem State.setWord_inDelaySlot (s : State) (a v : Word) :
    (s.setWord a v).inDelaySlot = s.inDelaySlot := rfl

/-! ### `State.advance` -/

@[simp] theorem State.advance_gpr (s : State) (d : Delay) : (s.advance d).gpr = s.gpr := rfl
@[simp] theorem State.advance_hi (s : State) (d : Delay) : (s.advance d).hi = s.hi := rfl
@[simp] theorem State.advance_lo (s : State) (d : Delay) : (s.advance d).lo = s.lo := rfl
@[simp] theorem State.advance_pc (s : State) (d : Delay) :
    (s.advance d).pc = s.nextPc := rfl
@[simp] theorem State.advance_delay (s : State) (d : Delay) :
    (s.advance d).delay = d := rfl
@[simp] theorem State.advance_mem (s : State) (d : Delay) : (s.advance d).mem = s.mem := rfl
@[simp] theorem State.advance_params (s : State) (d : Delay) : (s.advance d).params = s.params := rfl
@[simp] theorem State.advance_draws (s : State) (d : Delay) : (s.advance d).draws = s.draws := rfl
@[simp] theorem State.advance_x (s : State) (d : Delay) (r : RegNum) : (s.advance d).x r = s.x r := rfl
@[simp] theorem State.advance_word (s : State) (d : Delay) (b : Word) : (s.advance d).word b = s.word b := rfl
@[simp] theorem State.advance_inCode (s : State) (d : Delay) (b : Word) : (s.advance d).inCode b = s.inCode b := rfl
@[simp] theorem State.advance_inData (s : State) (d : Delay) (b : Word) : (s.advance d).inData b = s.inData b := rfl

/-! ### `State.placeCode` -/

@[simp] theorem State.placeCode_gpr (s : State) (a w : Word) : (s.placeCode a w).gpr = s.gpr := rfl
@[simp] theorem State.placeCode_hi (s : State) (a w : Word) : (s.placeCode a w).hi = s.hi := rfl
@[simp] theorem State.placeCode_lo (s : State) (a w : Word) : (s.placeCode a w).lo = s.lo := rfl
@[simp] theorem State.placeCode_pc (s : State) (a w : Word) : (s.placeCode a w).pc = s.pc := rfl
@[simp] theorem State.placeCode_delay (s : State) (a w : Word) : (s.placeCode a w).delay = s.delay := rfl
@[simp] theorem State.placeCode_mem (s : State) (a w : Word) :
    (s.placeCode a w).mem = s.mem.writeWord s.params.bigEndian a w := rfl
@[simp] theorem State.placeCode_draws (s : State) (a w : Word) : (s.placeCode a w).draws = s.draws := rfl
@[simp] theorem State.placeCode_x (s : State) (a w : Word) (r : RegNum) : (s.placeCode a w).x r = s.x r := rfl
@[simp] theorem State.placeCode_nextPc (s : State) (a w : Word) : (s.placeCode a w).nextPc = s.nextPc := rfl
@[simp] theorem State.placeCode_inDelaySlot (s : State) (a w : Word) :
    (s.placeCode a w).inDelaySlot = s.inDelaySlot := rfl

@[simp] theorem State.placeCode_bigEndian (s : State) (a w : Word) :
    (s.placeCode a w).params.bigEndian = s.params.bigEndian := rfl

/-! ### Registers (R17, R22) -/

/-- Register 0 reads zero in every state (R22). -/
@[simp] theorem State.x_zero (s : State) : s.x 0#5 = 0#32 := rfl

/-- What a register write leaves every register at (R17, R22). -/
theorem State.setX_x (s : State) (i r : RegNum) (v : Word) :
    (s.setX i v).x r = if r = i ∧ i ≠ 0#5 then v else s.x r := by
  unfold State.x State.setX
  by_cases hi : i = 0#5
  · simp [hi]
  · by_cases h : r = i
    · subst h; simp [hi]
    · have : i.toNat ≠ r.toNat := fun e => h (BitVec.eq_of_toNat_eq e.symm)
      simp [hi, h, this]

@[simp] theorem State.setX_x_self (s : State) (i : RegNum) (v : Word) (h : i ≠ 0#5) :
    (s.setX i v).x i = v := by simp [State.setX_x, h]

/-- A write to register 0 is discarded (R22). -/
@[simp] theorem State.setX_zero (s : State) (v : Word) : s.setX 0#5 v = s := rfl

/-- No register write touches the slot of register 0 (R22). -/
@[simp] theorem State.setX_gpr_zero (s : State) (i : RegNum) (v : Word) :
    (s.setX i v).gpr[0] = s.gpr[0] := by
  unfold State.setX
  by_cases hi : i = 0#5
  · simp [hi]
  · have : i.toNat ≠ 0 := fun e => hi (BitVec.eq_of_toNat_eq e)
    simp [hi, this]

/-! ### The delay state (R28, R30) -/

theorem State.inDelaySlot_iff (s : State) : s.inDelaySlot = true ↔ s.delay ≠ .none := by
  simp [State.inDelaySlot]

theorem State.inDelaySlot_eq_false_iff (s : State) : s.inDelaySlot = false ↔ s.delay = .none := by
  simp [State.inDelaySlot]

theorem State.nextPc_of_none (s : State) (h : s.delay = .none) : s.nextPc = s.pc + 4#32 := by
  simp [State.nextPc, h]

theorem State.nextPc_of_notTaken (s : State) (h : s.delay = .notTaken) : s.nextPc = s.pc + 4#32 := by
  simp [State.nextPc, h]

theorem State.nextPc_of_taken (s : State) (t : Word) (h : s.delay = .taken t) : s.nextPc = t := by
  simp [State.nextPc, h]

/-! ### The launch -/

/-- State.reset is the launch of log 5: nothing admitted, nothing loaded, every open value zero. -/
theorem State.reset_eq_ofLaunch :
    State.reset = State.ofLaunch
      { params := { bigEndian := false, map := [] }, entryPC := 0, gpr := Vector.replicate 32 0,
        hi := 0, lo := 0, image := [] } := by decide

end Sys2Proof.Machine
end

