-- ==== Sys2Proof/Laws/Memory.lean ====
section
/-! SUPPORT. Memory: a byte read after a write, the canonical form, and the same for words. -/

namespace Sys2Proof.Machine

open Sys2Proof

/-! ### Bytes -/

theorem Memory.read_insert_self (c : Host.Cell) (m : Memory) (h : ∀ d ∈ m, d.1 ≠ c.1) :
    (Memory.insert c m).read c.1 = c.2 := by
  induction m with
  | nil => simp [Memory.insert, Memory.read]
  | cons d m ih =>
    have hd : d.1 ≠ c.1 := h d (by simp)
    simp only [Memory.insert]
    split
    · simp [Memory.read]
    · simp [Memory.read, hd, ih (fun e he => h e (by simp [he]))]

theorem Memory.read_insert_other (c : Host.Cell) (m : Memory) (a : Nat) (h : c.1 ≠ a) :
    (Memory.insert c m).read a = m.read a := by
  induction m with
  | nil => simp [Memory.insert, Memory.read, h]
  | cons d m ih =>
    simp only [Memory.insert]
    split
    · simp [Memory.read, h]
    · simp [Memory.read, ih]

theorem Memory.read_filter_other (m : Memory) (a b : Nat) (h : b ≠ a) :
    Memory.read (m.filter (fun c => c.1 != a)) b = m.read b := by
  induction m with
  | nil => rfl
  | cons d m ih =>
    by_cases hd : d.1 = a
    · have hb : ¬ d.1 = b := fun e => h (e.symm.trans hd)
      have hab : ¬ a = b := fun e => h e.symm
      simp [hd, Memory.read, hab, ih]
    · simp [hd, Memory.read, ih]

theorem Memory.read_filter_self (m : Memory) (a : Nat) :
    Memory.read (m.filter (fun c => c.1 != a)) a = Memory.unlisted := by
  induction m with
  | nil => rfl
  | cons d m ih =>
    by_cases hd : d.1 = a
    · simp [hd, ih]
    · simp [hd, Memory.read, ih]

/-- A byte read where it was just written. -/
@[simp] theorem Memory.read_write_self (m : Memory) (a : Nat) (v : Byte) :
    (m.write a v).read a = v := by
  unfold Memory.write
  split
  · next h => rw [Memory.read_filter_self, h]
  · exact Memory.read_insert_self (a, v) _ (fun d hd => by simpa using (List.mem_filter.mp hd).2)

/-- A byte read anywhere else. -/
theorem Memory.read_write_other (m : Memory) (a b : Nat) (v : Byte) (h : b ≠ a) :
    (m.write a v).read b = m.read b := by
  unfold Memory.write
  split
  · exact Memory.read_filter_other m a b h
  · rw [Memory.read_insert_other _ _ _ (fun e => h e.symm), Memory.read_filter_other m a b h]

theorem Memory.read_write (m : Memory) (a b : Nat) (v : Byte) :
    (m.write a v).read b = if b = a then v else m.read b := by
  split
  · next h => rw [h, Memory.read_write_self]
  · next h => exact Memory.read_write_other m a b v h

/-! ### The canonical form -/

theorem Memory.risingFrom_mono {n k : Nat} {m : Memory} (hnk : n ≤ k)
    (h : Memory.risingFrom k m = true) : Memory.risingFrom n m = true := by
  cases m with
  | nil => rfl
  | cons c m => simp_all [Memory.risingFrom]; omega

theorem Memory.risingFrom_filter (p : Host.Cell → Bool) (n : Nat) (m : Memory)
    (h : Memory.risingFrom n m = true) : Memory.risingFrom n (m.filter p) = true := by
  induction m generalizing n with
  | nil => rfl
  | cons c m ih =>
    simp only [Memory.risingFrom, Bool.and_eq_true, decide_eq_true_eq] at h
    by_cases hc : p c = true
    · simp [hc, Memory.risingFrom, h.1, ih _ h.2]
    · simp only [List.filter_cons, hc]
      exact Memory.risingFrom_mono (by omega) (ih _ h.2)

theorem Memory.risingFrom_insert (c : Host.Cell) (n : Nat) (m : Memory) (hn : n ≤ c.1)
    (hm : ∀ d ∈ m, d.1 ≠ c.1) (h : Memory.risingFrom n m = true) :
    Memory.risingFrom n (Memory.insert c m) = true := by
  induction m generalizing n with
  | nil => simp [Memory.insert, Memory.risingFrom, hn]
  | cons d m ih =>
    simp only [Memory.risingFrom, Bool.and_eq_true, decide_eq_true_eq] at h
    have hd : d.1 ≠ c.1 := hm d (by simp)
    simp only [Memory.insert]
    split
    · next hlt => simp [Memory.risingFrom, hn, h.2]; omega
    · next hlt =>
      simp only [Memory.risingFrom, Bool.and_eq_true, decide_eq_true_eq]
      exact ⟨h.1, ih _ (by omega) (fun e he => hm e (by simp [he])) h.2⟩

theorem Memory.mem_insert (c d : Host.Cell) (m : Memory) :
    d ∈ Memory.insert c m ↔ d = c ∨ d ∈ m := by
  induction m with
  | nil => simp [Memory.insert]
  | cons e m ih =>
    simp only [Memory.insert]
    split
    · simp
    · simp only [List.mem_cons, ih]; tauto

theorem Memory.wf_iff (m : Memory) :
    Memory.wf m = true ↔ Memory.risingFrom 0 m = true ∧
      ∀ c ∈ m, c.1 < 2 ^ 32 ∧ c.2 ≠ Memory.unlisted := by
  simp [Memory.wf]

/-- A write of one byte inside the address space keeps the canonical form. -/
theorem Memory.write_wf (m : Memory) (a : Nat) (v : Byte) (ha : a < 2 ^ 32)
    (h : Memory.wf m = true) : Memory.wf (m.write a v) = true := by
  rw [Memory.wf_iff] at h ⊢
  have hf := Memory.risingFrom_filter (fun c => c.1 != a) 0 m h.1
  unfold Memory.write
  split
  · exact ⟨hf, fun c hc => h.2 c (List.mem_of_mem_filter hc)⟩
  · next hv =>
    refine ⟨Memory.risingFrom_insert _ _ _ (Nat.zero_le _)
      (fun d hd => by simpa using (List.mem_filter.mp hd).2) hf, fun c hc => ?_⟩
    rcases (Memory.mem_insert _ _ _).mp hc with rfl | hc
    · exact ⟨ha, hv⟩
    · exact h.2 c (List.mem_of_mem_filter hc)

theorem byteAddr_lt (a : Word) (k : Nat) : byteAddr a k < 2 ^ 32 := (a + BitVec.ofNat 32 k).isLt

/-- A write of a word keeps the canonical form. -/
theorem Memory.writeWord_wf (be : Bool) (m : Memory) (a v : Word) (h : Memory.wf m = true) :
    Memory.wf (m.writeWord be a v) = true := by
  unfold Memory.writeWord
  exact Memory.write_wf _ _ _ (byteAddr_lt _ _) <| Memory.write_wf _ _ _ (byteAddr_lt _ _) <|
    Memory.write_wf _ _ _ (byteAddr_lt _ _) <| Memory.write_wf _ _ _ (byteAddr_lt _ _) h

/-- Memory with nothing listed has the canonical form, whichever form State.reset's memory takes. -/
theorem State.reset_mem_wf : Memory.wf State.reset.mem = true := by decide

/-- Every launch image makes memory in the canonical form. -/
theorem Memory.ofImage_wf (image : List (Word × Byte)) : Memory.wf (Memory.ofImage image) = true := by
  have : ∀ (l : List (Word × Byte)) (m : Memory), Memory.wf m = true →
      Memory.wf (l.foldl (fun m c => m.write c.1.toNat c.2) m) = true := by
    intro l
    induction l with
    | nil => exact fun _ h => h
    | cons c l ih => exact fun m h => ih _ (Memory.write_wf _ _ _ c.1.isLt h)
  exact this image [] (by decide)

/-! ### Alignment and words -/

theorem aligned_iff (a : Word) : aligned a = true ↔ a.toNat % 4 = 0 := by
  unfold aligned
  rw [beq_iff_eq, ← BitVec.toNat_inj, BitVec.extractLsb'_toNat]
  simp

/-- The bytes of an aligned word stand at its address and the three after it. -/
theorem byteAddr_of_aligned (a : Word) (h : aligned a = true) (k : Nat) (hk : k < 4) :
    byteAddr a k = a.toNat + k := by
  have h4 := (aligned_iff a).mp h
  have := a.isLt
  unfold byteAddr
  rw [BitVec.toNat_add, BitVec.toNat_ofNat]
  omega

theorem byteAddr_injective (a : Word) {j k : Nat} (hj : j < 4) (hk : k < 4) (h : j ≠ k) :
    byteAddr a j ≠ byteAddr a k := by
  have := a.isLt
  unfold byteAddr
  rw [BitVec.toNat_add, BitVec.toNat_add, BitVec.toNat_ofNat, BitVec.toNat_ofNat]
  omega

/-- A byte after a word was written: one of the word's four, or what it was (R45). -/
theorem Memory.read_writeWord (be : Bool) (m : Memory) (a v : Word) (b : Nat) :
    (m.writeWord be a v).read b =
      if b = byteAddr a 3 then byteOfWord be v 3
      else if b = byteAddr a 2 then byteOfWord be v 2
      else if b = byteAddr a 1 then byteOfWord be v 1
      else if b = byteAddr a 0 then byteOfWord be v 0
      else m.read b := by
  simp only [Memory.writeWord, Memory.read_write]

/-- The bytes of an aligned word apart, no byte changes (R45). -/
theorem Memory.read_writeWord_outside (be : Bool) (m : Memory) (a v : Word) (b : Nat)
    (ha : aligned a = true) (hb : b < a.toNat ∨ a.toNat + 4 ≤ b) :
    (m.writeWord be a v).read b = m.read b := by
  rw [Memory.read_writeWord]
  rw [byteAddr_of_aligned a ha 0 (by omega), byteAddr_of_aligned a ha 1 (by omega),
    byteAddr_of_aligned a ha 2 (by omega), byteAddr_of_aligned a ha 3 (by omega)]
  rw [if_neg (by omega), if_neg (by omega), if_neg (by omega), if_neg (by omega)]

/-- The four bytes of a word make the word again, in either byte order (R44). -/
theorem wordOfBytes_byteOfWord (be : Bool) (v : Word) :
    wordOfBytes be (byteOfWord be v 0) (byteOfWord be v 1) (byteOfWord be v 2) (byteOfWord be v 3)
      = v := by
  have e3 := BitVec.extractLsb'_append_extractLsb'_eq_extractLsb' (x := v) (start₁ := 16)
    (len₁ := 8) (start₂ := 24) (len₂ := 8) (by decide)
  have e2 := BitVec.extractLsb'_append_extractLsb'_eq_extractLsb' (x := v) (start₁ := 8)
    (len₁ := 8) (start₂ := 16) (len₂ := 16) (by decide)
  have e1 := BitVec.extractLsb'_append_extractLsb'_eq_extractLsb' (x := v) (start₁ := 0)
    (len₁ := 8) (start₂ := 8) (len₂ := 24) (by decide)
  have h : v.extractLsb' 24 8 ++ v.extractLsb' 16 8 ++ v.extractLsb' 8 8 ++ v.extractLsb' 0 8 = v :=
    (congrArg (· ++ v.extractLsb' 0 8)
      ((congrArg (· ++ v.extractLsb' 8 8) e3).trans e2)).trans (e1.trans (by simp))
  cases be
  · simpa [wordOfBytes, byteOfWord] using h
  · simpa [wordOfBytes, byteOfWord] using h

/-- A word read where it was just written (R49). -/
@[simp] theorem Memory.readWord_writeWord (be : Bool) (m : Memory) (a v : Word) :
    (m.writeWord be a v).readWord be a = v := by
  unfold Memory.readWord
  simp only [Memory.read_writeWord]
  have h01 := byteAddr_injective a (j := 0) (k := 1) (by omega) (by omega) (by omega)
  have h02 := byteAddr_injective a (j := 0) (k := 2) (by omega) (by omega) (by omega)
  have h03 := byteAddr_injective a (j := 0) (k := 3) (by omega) (by omega) (by omega)
  have h12 := byteAddr_injective a (j := 1) (k := 2) (by omega) (by omega) (by omega)
  have h13 := byteAddr_injective a (j := 1) (k := 3) (by omega) (by omega) (by omega)
  have h23 := byteAddr_injective a (j := 2) (k := 3) (by omega) (by omega) (by omega)
  simp only [h01, h02, h03, h12, h13, h23, if_true, if_false, wordOfBytes_byteOfWord]

/-- A word read at another aligned address than the one written (R45). -/
theorem Memory.readWord_writeWord_other (be be' : Bool) (m : Memory) (a b v : Word)
    (ha : aligned a = true) (hb : aligned b = true) (h : b ≠ a) :
    (m.writeWord be a v).readWord be' b = m.readWord be' b := by
  have ha4 := (aligned_iff a).mp ha
  have hb4 := (aligned_iff b).mp hb
  have hne : b.toNat ≠ a.toNat := fun e => h (BitVec.eq_of_toNat_eq e)
  unfold Memory.readWord
  rw [byteAddr_of_aligned b hb 0 (by omega), byteAddr_of_aligned b hb 1 (by omega),
    byteAddr_of_aligned b hb 2 (by omega), byteAddr_of_aligned b hb 3 (by omega)]
  rw [Memory.read_writeWord_outside be m a v _ ha (by omega),
    Memory.read_writeWord_outside be m a v _ ha (by omega),
    Memory.read_writeWord_outside be m a v _ ha (by omega),
    Memory.read_writeWord_outside be m a v _ ha (by omega)]

@[simp] theorem State.word_setWord (s : State) (a v : Word) : (s.setWord a v).word a = v := by
  simp [State.word, State.setWord]

theorem State.word_setWord_other (s : State) (a b v : Word) (ha : aligned a = true)
    (hb : aligned b = true) (h : b ≠ a) : (s.setWord a v).word b = s.word b :=
  Memory.readWord_writeWord_other _ _ _ _ _ _ ha hb h

/-! ### The admitted regions (R48) -/

theorem State.aligned_of_inCode (s : State) (a : Word) (h : s.inCode a = true) : aligned a = true := by
  simp only [State.inCode, Bool.and_eq_true] at h
  exact h.1

theorem State.aligned_of_inData (s : State) (a : Word) (h : s.inData a = true) : aligned a = true := by
  simp only [State.inData, Bool.and_eq_true] at h
  exact h.1

/-- CodeRegion and DataRegion have no address in common, whatever the launch supplies (R48). -/
theorem State.not_inData_of_inCode (s : State) (a : Word) (h : s.inCode a = true) :
    s.inData a = false := by
  simp only [State.inCode, Bool.and_eq_true, beq_iff_eq] at h
  simp [State.inData, h.2]

end Sys2Proof.Machine
end

