-- ==== Sys2Proof/Laws/Operands.lean ====
section
/-! SUPPORT. The 33-bit arithmetic of ADD, ADDI and SUB (R100), on integers. -/

namespace Sys2Proof.Machine

open Sys2Proof

@[simp] theorem wide_toInt (v : Word) : (wide v).toInt = v.toInt :=
  BitVec.toInt_signExtend_of_le (by decide)

@[simp] theorem wideImmediate_toInt (v : BitVec 16) : (wideImmediate v).toInt = v.toInt :=
  BitVec.toInt_signExtend_of_le (by decide)

/-- Bits 32 and 31 agree exactly when the 33-bit value is representable in 32 bits (R100). -/
theorem overflows_eq_false_iff (t : BitVec 33) :
    overflows t = false ↔ -2 ^ 31 ≤ t.toInt ∧ t.toInt < 2 ^ 31 := by
  have h := t.isLt
  have h32 : t.getLsbD 32 = decide (t.toNat / 2 ^ 32 % 2 = 1) := by
    rw [BitVec.getLsbD, Nat.testBit_eq_decide_div_mod_eq]
  have h31 : t.getLsbD 31 = decide (t.toNat / 2 ^ 31 % 2 = 1) := by
    rw [BitVec.getLsbD, Nat.testBit_eq_decide_div_mod_eq]
  rw [overflows, h32, h31, BitVec.toInt_eq_toNat_cond, bne_eq_false_iff_eq, decide_eq_decide]
  split <;> omega

/-- The low 32 bits of the 33-bit value, as the integer it stands for (R101). -/
theorem low32_eq_ofInt (t : BitVec 33) : low32 t = BitVec.ofInt 32 t.toInt := by
  apply BitVec.eq_of_toInt_eq
  have : (low32 t).toNat = t.toNat % 2 ^ 32 := by simp [low32, BitVec.extractLsb'_toNat]
  rw [BitVec.toInt_ofInt, BitVec.toInt_eq_toNat_bmod, this, BitVec.toInt_eq_toNat_cond]
  simp only [Int.bmod_def]
  split <;> omega

/-- A sum of two 32-bit signed values does not wrap in 33 bits (R100). -/
theorem wide_add_toInt (a b : BitVec 33) (ha : -2 ^ 31 ≤ a.toInt ∧ a.toInt < 2 ^ 31)
    (hb : -2 ^ 31 ≤ b.toInt ∧ b.toInt < 2 ^ 31) : (a + b).toInt = a.toInt + b.toInt := by
  rw [BitVec.toInt_add, Int.bmod_eq_of_le] <;> norm_num at * <;> omega

/-- A difference of two 32-bit signed values does not wrap in 33 bits (R100). -/
theorem wide_sub_toInt (a b : BitVec 33) (ha : -2 ^ 31 ≤ a.toInt ∧ a.toInt < 2 ^ 31)
    (hb : -2 ^ 31 ≤ b.toInt ∧ b.toInt < 2 ^ 31) : (a - b).toInt = a.toInt - b.toInt := by
  rw [BitVec.toInt_sub, Int.bmod_eq_of_le] <;> norm_num at * <;> omega

/-- The range of a 32-bit signed value (R16). -/
theorem word_toInt_bounds (v : Word) : -2 ^ 31 ≤ v.toInt ∧ v.toInt < 2 ^ 31 :=
  ⟨BitVec.le_toInt v, BitVec.toInt_lt⟩

/-- The range of a 16-bit signed immediate, inside a word's (R67). -/
theorem immediate_toInt_bounds (v : BitVec 16) : -2 ^ 31 ≤ v.toInt ∧ v.toInt < 2 ^ 31 := by
  have h1 := BitVec.le_toInt v
  have h2 := BitVec.toInt_lt (x := v)
  omega

end Sys2Proof.Machine
end

