-- ==== Sys2Proof/Laws/Ops.lean ====
section
/-! SUPPORT. For each shared operation, once, everything it can do. -/

namespace Sys2Proof.Machine

open Sys2Proof

/-! ### When an operation answers a next state -/

theorem complete_eq_next (s t : State) : complete s = .next t ↔ t = s.advance .none := by
  simp [complete, eq_comm]

theorem branchOrJump_eq_next (s s' t : State) (d : Delay) :
    branchOrJump s s' d = .next t ↔ s.delay = .none ∧ t = s'.advance d := by
  rw [← State.inDelaySlot_eq_false_iff]
  cases h : s.inDelaySlot
  · simp [branchOrJump, h]; exact eq_comm
  · simp [branchOrJump, h]

@[simp] theorem raise_ne_next (e : Exc) (v : Option Word) (s t : State) : raise e v s ≠ .next t := by
  simp [raise]

theorem writeUnless_eq_next (o : Bool) (rd : RegNum) (v : Word) (s t : State) :
    writeUnless o rd v s = .next t ↔ o = false ∧ t = (s.setX rd v).advance .none := by
  unfold writeUnless
  split <;> simp_all [complete_eq_next]

theorem loadWord_eq_next (rt : RegNum) (a : Word) (s t : State) :
    loadWord rt a s = .next t ↔
      aligned a = true ∧ s.inData a = true ∧ t = (s.setX rt (s.word a)).advance .none := by
  unfold loadWord
  split
  · simp_all
  · split <;> simp_all [complete_eq_next]

theorem storeWord_eq_next (a v : Word) (s t : State) :
    storeWord a v s = .next t ↔
      aligned a = true ∧ s.inData a = true ∧ t = (s.setWord a v).advance .none := by
  unfold storeWord
  split
  · simp_all
  · split <;> simp_all [complete_eq_next]

theorem fetchThen_eq_next (run : Instr → Result) (s t : State) :
    fetchThen run s = .next t ↔
      aligned s.pc = true ∧ s.inCode s.pc = true ∧
        ∃ i, decode (s.fetch s.pc) = some i ∧ run i = .next t := by
  unfold fetchThen
  split
  · simp_all
  · split
    · simp_all
    · split <;> simp_all

/-! ### When an operation ends in a fault -/

@[simp] theorem complete_ne_fault (s : State) (f : Fault) : complete s ≠ .fault f := by
  simp [complete]

theorem raise_eq_fault (e : Exc) (v : Option Word) (s : State) (f : Fault) :
    raise e v s = .fault f ↔ f = .trap ⟨e, s, s.pc, s.inDelaySlot, v⟩ := by
  simp [raise, eq_comm]

theorem branchOrJump_eq_fault (s s' : State) (d : Delay) (f : Fault) :
    branchOrJump s s' d = .fault f ↔
      s.inDelaySlot = true ∧ f = .unpredictable .branchInDelaySlot s := by
  cases h : s.inDelaySlot
  · simp [branchOrJump, h]
  · simp [branchOrJump, h]; exact eq_comm

theorem writeUnless_eq_fault (o : Bool) (rd : RegNum) (v : Word) (s : State) (f : Fault) :
    writeUnless o rd v s = .fault f ↔
      o = true ∧ f = .trap ⟨.integerOverflow, s, s.pc, s.inDelaySlot, none⟩ := by
  unfold writeUnless
  split <;> simp_all [raise_eq_fault]

theorem loadWord_eq_fault (rt : RegNum) (a : Word) (s : State) (f : Fault) :
    loadWord rt a s = .fault f ↔
      (aligned a = false ∧ f = .trap ⟨.addressError, s, s.pc, s.inDelaySlot, some a⟩) ∨
        (aligned a = true ∧ s.inData a = false ∧ f = .accessNotAdmitted .load a s) := by
  cases ha : aligned a
  · simp [loadWord, ha, raise_eq_fault]
  · cases hd : s.inData a
    · simp [loadWord, ha, hd]; exact eq_comm
    · simp [loadWord, ha, hd]

theorem storeWord_eq_fault (a v : Word) (s : State) (f : Fault) :
    storeWord a v s = .fault f ↔
      (aligned a = false ∧ f = .trap ⟨.addressError, s, s.pc, s.inDelaySlot, some a⟩) ∨
        (aligned a = true ∧ s.inData a = false ∧ f = .accessNotAdmitted .store a s) := by
  cases ha : aligned a
  · simp [storeWord, ha, raise_eq_fault]
  · cases hd : s.inData a
    · simp [storeWord, ha, hd]; exact eq_comm
    · simp [storeWord, ha, hd]

/-! ### No operation of a meaning refuses -/

@[simp] theorem complete_ne_refused (s : State) (r : Refusal) : complete s ≠ .refused r := by
  simp [complete]

@[simp] theorem raise_ne_refused (e : Exc) (v : Option Word) (s : State) (r : Refusal) :
    raise e v s ≠ .refused r := by
  simp [raise]

@[simp] theorem branchOrJump_ne_refused (s s' : State) (d : Delay) (r : Refusal) :
    branchOrJump s s' d ≠ .refused r := by
  unfold branchOrJump; split <;> simp

@[simp] theorem writeUnless_ne_refused (o : Bool) (rd : RegNum) (v : Word) (s : State) (r : Refusal) :
    writeUnless o rd v s ≠ .refused r := by
  unfold writeUnless; split <;> simp

@[simp] theorem loadWord_ne_refused (rt : RegNum) (a : Word) (s : State) (r : Refusal) :
    loadWord rt a s ≠ .refused r := by
  unfold loadWord; split <;> [simp; split <;> simp]

@[simp] theorem storeWord_ne_refused (a v : Word) (s : State) (r : Refusal) :
    storeWord a v s ≠ .refused r := by
  unfold storeWord; split <;> [simp; split <;> simp]

/-! ### Conditions and operands -/

/-- ROTR is implemented on this hardware (R8, R162). -/
@[simp] theorem rotrMissing_eq_false : rotrMissing = false := rfl

@[simp] theorem equal_iff (a b : Word) : equal a b = true ↔ a = b := by simp [equal]

/-- The two low bits of the target offset are zero (R68, R120). -/
theorem branchOffset_mod_four (offset : BitVec 16) : (branchOffset offset).toNat % 4 = 0 := by
  have h : (branchOffset offset).extractLsb' 0 2 = 0#2 := by
    have e : (branchOffset offset).extractLsb' 0 2 = (offset ++ 0#2).extractLsb' 0 2 := by
      ext k hk
      have : k < 32 ∧ k < 18 := by omega
      simp [branchOffset, BitVec.getElem_signExtend, this]
    exact e.trans ((BitVec.extractLsb'_append_eq_of_add_le (by decide)).trans (by simp))
  have := congrArg BitVec.toNat h
  rw [BitVec.extractLsb'_toNat] at this
  simpa using this

end Sys2Proof.Machine
end

