-- ==== Sys2Proof/Laws/PerInstr.lean ====
section
/-! SUPPORT. Per instruction: its encoding lies in its own row of the opcode table (R73). -/

namespace Sys2Proof

/-- A format-R word under a mask, field by field. -/
theorem formatR_and (a b c d ma mb mc md : BitVec 5) (fn mf : BitVec 6) (m : Word)
    (hm : m = 0b111111#6 ++ ma ++ mb ++ mc ++ md ++ mf) :
    formatR a b c d fn &&& m = formatR (a &&& ma) (b &&& mb) (c &&& mc) (d &&& md) (fn &&& mf) := by
  subst hm
  unfold formatR
  rw [BitVec.and_append, BitVec.and_append, BitVec.and_append, BitVec.and_append, BitVec.and_append]
  rfl

/-- A format-I word under a mask, field by field. -/
theorem formatI_and (op : BitVec 6) (a b ma mb : BitVec 5) (i mi : BitVec 16) (m : Word)
    (hm : m = 0b111111#6 ++ ma ++ mb ++ mi) :
    formatI op a b i &&& m = formatI op (a &&& ma) (b &&& mb) (i &&& mi) := by
  subst hm
  unfold formatI
  rw [BitVec.and_append, BitVec.and_append, BitVec.and_append,
    show op &&& 0b111111#6 = op from BitVec.and_allOnes]

/-- A format-J word under a mask, field by field. -/
theorem formatJ_and (op : BitVec 6) (i mi : BitVec 26) (m : Word) (hm : m = 0b111111#6 ++ mi) :
    formatJ op i &&& m = formatJ op (i &&& mi) := by
  subst hm
  unfold formatJ
  rw [BitVec.and_append, show op &&& 0b111111#6 = op from BitVec.and_allOnes]

/-- A SYSCALL word under a mask, field by field. -/
theorem formatSyscall_and (code mc : BitVec 20) (m : Word)
    (hm : m = 0b111111#6 ++ mc ++ 0b111111#6) :
    formatSyscall code &&& m = formatSyscall (code &&& mc) := by
  subst hm
  unfold formatSyscall
  rw [BitVec.and_append, BitVec.and_append]
  rfl

/-- Some row of the table bears the instruction's mnemonic and holds its word. -/
def Laws.EncodingInRow.Statement (i : Instr) : Prop :=
  ∃ r ∈ opcodeTable ++ aliasTable, r.mnemonic = i.mnemonic ∧ r.admits (encode i) = true

theorem Laws.EncodingInRow.add (rd : RegNum) (rs : RegNum) (rt : RegNum) :
    Laws.EncodingInRow.Statement (.add rd rs rt) := by
  refine ⟨⟨"ADD", 0x00000020, 0xFC0007FF⟩, by decide, rfl, beq_iff_eq.mpr ?_⟩
  refine (formatR_and _ _ _ _ 0#5 0#5 0#5 31#5 _ 63#6 _ (by decide)).trans ?_
  simp only [BitVec.and_zero]
  decide

theorem Laws.EncodingInRow.addi (rt : RegNum) (rs : RegNum) (imm : BitVec 16) :
    Laws.EncodingInRow.Statement (.addi rt rs imm) := by
  refine ⟨⟨"ADDI", 0x20000000, 0xFC000000⟩, by decide, rfl, beq_iff_eq.mpr ?_⟩
  refine (formatI_and _ _ _ 0#5 0#5 _ 0#16 _ (by decide)).trans ?_
  simp only [BitVec.and_zero]
  decide

theorem Laws.EncodingInRow.and (rd : RegNum) (rs : RegNum) (rt : RegNum) :
    Laws.EncodingInRow.Statement (.and rd rs rt) := by
  refine ⟨⟨"AND", 0x00000024, 0xFC0007FF⟩, by decide, rfl, beq_iff_eq.mpr ?_⟩
  refine (formatR_and _ _ _ _ 0#5 0#5 0#5 31#5 _ 63#6 _ (by decide)).trans ?_
  simp only [BitVec.and_zero]
  decide

theorem Laws.EncodingInRow.beq (rs : RegNum) (rt : RegNum) (off : BitVec 16) :
    Laws.EncodingInRow.Statement (.beq rs rt off) := by
  refine ⟨⟨"BEQ", 0x10000000, 0xFC000000⟩, by decide, rfl, beq_iff_eq.mpr ?_⟩
  refine (formatI_and _ _ _ 0#5 0#5 _ 0#16 _ (by decide)).trans ?_
  simp only [BitVec.and_zero]
  decide

theorem Laws.EncodingInRow.bgtz (rs : RegNum) (off : BitVec 16) :
    Laws.EncodingInRow.Statement (.bgtz rs off) := by
  refine ⟨⟨"BGTZ", 0x1C000000, 0xFC1F0000⟩, by decide, rfl, beq_iff_eq.mpr ?_⟩
  refine (formatI_and _ _ _ 0#5 31#5 _ 0#16 _ (by decide)).trans ?_
  simp only [BitVec.and_zero]
  decide

theorem Laws.EncodingInRow.blez (rs : RegNum) (off : BitVec 16) :
    Laws.EncodingInRow.Statement (.blez rs off) := by
  refine ⟨⟨"BLEZ", 0x18000000, 0xFC1F0000⟩, by decide, rfl, beq_iff_eq.mpr ?_⟩
  refine (formatI_and _ _ _ 0#5 31#5 _ 0#16 _ (by decide)).trans ?_
  simp only [BitVec.and_zero]
  decide

theorem Laws.EncodingInRow.bne (rs : RegNum) (rt : RegNum) (off : BitVec 16) :
    Laws.EncodingInRow.Statement (.bne rs rt off) := by
  refine ⟨⟨"BNE", 0x14000000, 0xFC000000⟩, by decide, rfl, beq_iff_eq.mpr ?_⟩
  refine (formatI_and _ _ _ 0#5 0#5 _ 0#16 _ (by decide)).trans ?_
  simp only [BitVec.and_zero]
  decide

theorem Laws.EncodingInRow.div (rs : RegNum) (rt : RegNum) :
    Laws.EncodingInRow.Statement (.div rs rt) := by
  refine ⟨⟨"DIV", 0x0000001A, 0xFC00FFFF⟩, by decide, rfl, beq_iff_eq.mpr ?_⟩
  refine (formatR_and _ _ _ _ 0#5 0#5 31#5 31#5 _ 63#6 _ (by decide)).trans ?_
  simp only [BitVec.and_zero]
  decide

theorem Laws.EncodingInRow.j (index : BitVec 26) :
    Laws.EncodingInRow.Statement (.j index) := by
  refine ⟨⟨"J", 0x08000000, 0xFC000000⟩, by decide, rfl, beq_iff_eq.mpr ?_⟩
  refine (formatJ_and _ _ 0#26 _ (by decide)).trans ?_
  simp only [BitVec.and_zero]
  decide

theorem Laws.EncodingInRow.jal (index : BitVec 26) :
    Laws.EncodingInRow.Statement (.jal index) := by
  refine ⟨⟨"JAL", 0x0C000000, 0xFC000000⟩, by decide, rfl, beq_iff_eq.mpr ?_⟩
  refine (formatJ_and _ _ 0#26 _ (by decide)).trans ?_
  simp only [BitVec.and_zero]
  decide

theorem Laws.EncodingInRow.jr (rs : RegNum) :
    Laws.EncodingInRow.Statement (.jr rs) := by
  refine ⟨⟨"JR", 0x00000008, 0xFC1FFFFF⟩, by decide, rfl, beq_iff_eq.mpr ?_⟩
  refine (formatR_and _ _ _ _ 0#5 31#5 31#5 31#5 _ 63#6 _ (by decide)).trans ?_
  simp only [BitVec.and_zero]
  decide

theorem Laws.EncodingInRow.lui (rt : RegNum) (imm : BitVec 16) :
    Laws.EncodingInRow.Statement (.lui rt imm) := by
  refine ⟨⟨"LUI", 0x3C000000, 0xFFE00000⟩, by decide, rfl, beq_iff_eq.mpr ?_⟩
  refine (formatI_and _ _ _ 31#5 0#5 _ 0#16 _ (by decide)).trans ?_
  simp only [BitVec.and_zero]
  decide

theorem Laws.EncodingInRow.lw (rt : RegNum) (off : BitVec 16) (base : RegNum) :
    Laws.EncodingInRow.Statement (.lw rt off base) := by
  refine ⟨⟨"LW", 0x8C000000, 0xFC000000⟩, by decide, rfl, beq_iff_eq.mpr ?_⟩
  refine (formatI_and _ _ _ 0#5 0#5 _ 0#16 _ (by decide)).trans ?_
  simp only [BitVec.and_zero]
  decide

theorem Laws.EncodingInRow.mfhi (rd : RegNum) :
    Laws.EncodingInRow.Statement (.mfhi rd) := by
  refine ⟨⟨"MFHI", 0x00000010, 0xFFFF07FF⟩, by decide, rfl, beq_iff_eq.mpr ?_⟩
  refine (formatR_and _ _ _ _ 31#5 31#5 0#5 31#5 _ 63#6 _ (by decide)).trans ?_
  simp only [BitVec.and_zero]
  decide

theorem Laws.EncodingInRow.mflo (rd : RegNum) :
    Laws.EncodingInRow.Statement (.mflo rd) := by
  refine ⟨⟨"MFLO", 0x00000012, 0xFFFF07FF⟩, by decide, rfl, beq_iff_eq.mpr ?_⟩
  refine (formatR_and _ _ _ _ 31#5 31#5 0#5 31#5 _ 63#6 _ (by decide)).trans ?_
  simp only [BitVec.and_zero]
  decide

theorem Laws.EncodingInRow.mult (rs : RegNum) (rt : RegNum) :
    Laws.EncodingInRow.Statement (.mult rs rt) := by
  refine ⟨⟨"MULT", 0x00000018, 0xFC00FFFF⟩, by decide, rfl, beq_iff_eq.mpr ?_⟩
  refine (formatR_and _ _ _ _ 0#5 0#5 31#5 31#5 _ 63#6 _ (by decide)).trans ?_
  simp only [BitVec.and_zero]
  decide

theorem Laws.EncodingInRow.or (rd : RegNum) (rs : RegNum) (rt : RegNum) :
    Laws.EncodingInRow.Statement (.or rd rs rt) := by
  refine ⟨⟨"OR", 0x00000025, 0xFC0007FF⟩, by decide, rfl, beq_iff_eq.mpr ?_⟩
  refine (formatR_and _ _ _ _ 0#5 0#5 0#5 31#5 _ 63#6 _ (by decide)).trans ?_
  simp only [BitVec.and_zero]
  decide

theorem Laws.EncodingInRow.rotr (rd : RegNum) (rt : RegNum) (sa : BitVec 5) :
    Laws.EncodingInRow.Statement (.rotr rd rt sa) := by
  refine ⟨⟨"ROTR", 0x00200002, 0xFFE0003F⟩, by decide, rfl, beq_iff_eq.mpr ?_⟩
  refine (formatR_and _ _ _ _ 31#5 0#5 0#5 0#5 _ 63#6 _ (by decide)).trans ?_
  simp only [BitVec.and_zero]
  decide

theorem Laws.EncodingInRow.sll (rd : RegNum) (rt : RegNum) (sa : BitVec 5) :
    Laws.EncodingInRow.Statement (.sll rd rt sa) := by
  refine ⟨⟨"SLL", 0x00000000, 0xFFE0003F⟩, by decide, rfl, beq_iff_eq.mpr ?_⟩
  refine (formatR_and _ _ _ _ 31#5 0#5 0#5 0#5 _ 63#6 _ (by decide)).trans ?_
  simp only [BitVec.and_zero]
  decide

theorem Laws.EncodingInRow.slt (rd : RegNum) (rs : RegNum) (rt : RegNum) :
    Laws.EncodingInRow.Statement (.slt rd rs rt) := by
  refine ⟨⟨"SLT", 0x0000002A, 0xFC0007FF⟩, by decide, rfl, beq_iff_eq.mpr ?_⟩
  refine (formatR_and _ _ _ _ 0#5 0#5 0#5 31#5 _ 63#6 _ (by decide)).trans ?_
  simp only [BitVec.and_zero]
  decide

theorem Laws.EncodingInRow.srl (rd : RegNum) (rt : RegNum) (sa : BitVec 5) :
    Laws.EncodingInRow.Statement (.srl rd rt sa) := by
  refine ⟨⟨"SRL", 0x00000002, 0xFFE0003F⟩, by decide, rfl, beq_iff_eq.mpr ?_⟩
  refine (formatR_and _ _ _ _ 31#5 0#5 0#5 0#5 _ 63#6 _ (by decide)).trans ?_
  simp only [BitVec.and_zero]
  decide

theorem Laws.EncodingInRow.sub (rd : RegNum) (rs : RegNum) (rt : RegNum) :
    Laws.EncodingInRow.Statement (.sub rd rs rt) := by
  refine ⟨⟨"SUB", 0x00000022, 0xFC0007FF⟩, by decide, rfl, beq_iff_eq.mpr ?_⟩
  refine (formatR_and _ _ _ _ 0#5 0#5 0#5 31#5 _ 63#6 _ (by decide)).trans ?_
  simp only [BitVec.and_zero]
  decide

theorem Laws.EncodingInRow.sw (rt : RegNum) (off : BitVec 16) (base : RegNum) :
    Laws.EncodingInRow.Statement (.sw rt off base) := by
  refine ⟨⟨"SW", 0xAC000000, 0xFC000000⟩, by decide, rfl, beq_iff_eq.mpr ?_⟩
  refine (formatI_and _ _ _ 0#5 0#5 _ 0#16 _ (by decide)).trans ?_
  simp only [BitVec.and_zero]
  decide

theorem Laws.EncodingInRow.syscall (code : BitVec 20) :
    Laws.EncodingInRow.Statement (.syscall code) := by
  refine ⟨⟨"SYSCALL", 0x0000000C, 0xFC00003F⟩, by decide, rfl, beq_iff_eq.mpr ?_⟩
  refine (formatSyscall_and _ 0#20 _ (by decide)).trans ?_
  simp only [BitVec.and_zero]
  decide

theorem Laws.EncodingInRow.xor (rd : RegNum) (rs : RegNum) (rt : RegNum) :
    Laws.EncodingInRow.Statement (.xor rd rs rt) := by
  refine ⟨⟨"XOR", 0x00000026, 0xFC0007FF⟩, by decide, rfl, beq_iff_eq.mpr ?_⟩
  refine (formatR_and _ _ _ _ 0#5 0#5 0#5 31#5 _ 63#6 _ (by decide)).trans ?_
  simp only [BitVec.and_zero]
  decide

theorem Laws.EncodingInRow.nop : Laws.EncodingInRow.Statement .nop :=
  ⟨⟨"NOP", 0x00000000, 0xFFFFFFFF⟩, by decide, rfl, by decide⟩

theorem Laws.EncodingInRow.ssnop : Laws.EncodingInRow.Statement .ssnop :=
  ⟨⟨"SSNOP", 0x00000040, 0xFFFFFFFF⟩, by decide, rfl, by decide⟩

end Sys2Proof
end

