-- ==== Sys2Proof/Laws/Run.lean ====
section
/-! SUPPORT. Runs of many steps. -/

namespace Sys2Proof.Machine

open Sys2Proof

/-- A run of any machine goes on from a next state, and only from one. -/
theorem core_run_succ_eq_next (M : Host.Core) (k : Nat) (s t : M.State) :
    M.run (k + 1) s = .next t ↔ ∃ u, M.step s = .next u ∧ M.run k u = .next t := by
  have e : M.run (k + 1) s =
      match M.step s with
      | .next u => M.run k u
      | .fault f => .fault f
      | .refused r => .refused r := rfl
  rw [e]
  cases M.step s <;> simp

theorem run_zero_eq_next (s t : State) :
    Host.Core.run Sys2Proof.core 0 s = .next t ↔ s = t := by
  change (Host.Outcome.next s : Result) = .next t ↔ s = t
  simp

theorem run_succ_eq_next (k : Nat) (s t : State) :
    Host.Core.run Sys2Proof.core (k + 1) s = .next t ↔
      ∃ u, step s = .next u ∧ Host.Core.run Sys2Proof.core k u = .next t :=
  core_run_succ_eq_next Sys2Proof.core k s t

/-- What every step keeps, every run keeps. -/
theorem run_keeps (P : State → Prop) (hP : ∀ s t, P s → step s = .next t → P t) (k : Nat)
    (s t : State) (hs : P s) (h : Host.Core.run Sys2Proof.core k s = .next t) : P t := by
  induction k generalizing s with
  | zero => exact (run_zero_eq_next s t).mp h ▸ hs
  | succ k ih =>
    obtain ⟨u, hu, hr⟩ := (run_succ_eq_next k s t).mp h
    exact ih u (hP s u hs hu) hr

end Sys2Proof.Machine
end

