-- ==== Sys2Proof/Tests/Slice0.lean ====
section
/-! SUPPORT. Tests. "95, 2.n" is that section of spec/95_test_vectors.md; "the ADD page" is the worked example or
corner case of the rule that describes ADD. Then, for every statement with hypotheses, a witness of them. -/

namespace Sys2Proof.Tests

open Sys2Proof Sys2Proof.Machine Sys2Proof.Claims

/-! ### Well-formedness and decoding -/

/-- NOP has no encoding of its own: its word is SLL's (R160). -/
theorem test_nop_not_wellFormed : Instr.nop.wellFormed = false := by decide

/-- SSNOP has no encoding of its own: its word is SLL's (R161). -/
theorem test_ssnop_not_wellFormed : Instr.ssnop.wellFormed = false := by decide

theorem test_sll_wellFormed : (Instr.sll 0 0 0).wellFormed = true := by decide

/-- Words written field by field from R63 (format R), each with the operands of its page's worked example. -/
theorem test_decode_format_R :
    decode 0b000000_00001_00010_00011_00000_100000#32 = some (.add 3 1 2) ∧
    decode 0b000000_00001_00010_00011_00000_100010#32 = some (.sub 3 1 2) ∧
    decode 0b000000_00001_00010_00011_00000_100100#32 = some (.and 3 1 2) ∧
    decode 0b000000_00001_00010_00011_00000_100101#32 = some (.or 3 1 2) ∧
    decode 0b000000_00001_00010_00011_00000_100110#32 = some (.xor 3 1 2) ∧
    decode 0b000000_00001_00010_00011_00000_101010#32 = some (.slt 3 1 2) ∧
    decode 0b000000_00001_00010_00000_00000_011000#32 = some (.mult 1 2) ∧
    decode 0b000000_00001_00010_00000_00000_011010#32 = some (.div 1 2) := by decide

/-- The rest of R63: moves, JR, shifts, SYSCALL. -/
theorem test_decode_special :
    decode 0b000000_00000_00000_00011_00000_010000#32 = some (.mfhi 3) ∧
    decode 0b000000_00000_00000_00011_00000_010010#32 = some (.mflo 3) ∧
    decode 0b000000_11111_00000_00000_00000_001000#32 = some (.jr 31) ∧
    decode 0b000000_00000_00010_00011_00100_000000#32 = some (.sll 3 2 4) ∧
    decode 0b000000_00000_00010_00011_00100_000010#32 = some (.srl 3 2 4) ∧
    decode 0b000000_00001_00010_00011_00100_000010#32 = some (.rotr 3 2 4) ∧
    decode 0b000000_10000000000000000001_001100#32 = some (.syscall 0x80001) := by decide

/-- Words written field by field from R64 and R65. -/
theorem test_decode_formats_I_J :
    decode 0b001000_00001_00010_1111111111111111#32 = some (.addi 2 1 0xFFFF) ∧
    decode 0b001111_00000_00010_0001001000110100#32 = some (.lui 2 0x1234) ∧
    decode 0b000100_00001_00010_0000000000000011#32 = some (.beq 1 2 3) ∧
    decode 0b000101_00001_00000_1111111111111110#32 = some (.bne 1 0 0xFFFE) ∧
    decode 0b000110_00001_00000_0000000000000010#32 = some (.blez 1 2) ∧
    decode 0b000111_00001_00000_0000000000000010#32 = some (.bgtz 1 2) ∧
    decode 0b100011_00001_00010_0000000000000100#32 = some (.lw 2 4 1) ∧
    decode 0b101011_00001_00010_0000000000001000#32 = some (.sw 2 8 1) ∧
    decode 0b000010_00000100000000000001000000#32 = some (.j 0x100040) ∧
    decode 0b000011_00000100000000000001000000#32 = some (.jal 0x100040) := by decide

/-- The idioms' words are SLL's and BEQ's (R86, R129, R160, R161). -/
theorem test_decode_idioms :
    decode 0x00000000#32 = some (.sll 0 0 0) ∧ decode 0x00000040#32 = some (.sll 0 0 1) ∧
    decode 0x1000FFFF#32 = some (Instr.b 0xFFFF) := by decide

/-- Invalid: ADDU and BREAK (R5), MULT with a zero field set (R77), JR.HB (R80), an opcode of no row (R74). -/
theorem test_decode_invalid :
    decode 0x00221821#32 = none ∧ decode 0x0000000D#32 = none ∧ decode 0x00220818#32 = none ∧
    decode 0x03E00408#32 = none ∧ decode 0xFC000000#32 = none := by decide

/-- Both byte orders, and too few bytes (R44, R60). -/
theorem test_decodeBytes :
    decodeBytes true [0x00, 0x22, 0x18, 0x20, 0xAA] = .ok (.add 3 1 2, [0xAA]) ∧
    decodeBytes false [0x20, 0x18, 0x22, 0x00] = .ok (.add 3 1 2, []) ∧
    decodeBytes false [0x20, 0x18, 0x22] = .error .truncated := ⟨rfl, rfl, rfl⟩

/-! ### One step -/

/-- `r1 = a`, `r2 = b`, `pc = 0x00400000` with three words of code (all zero), and two words of data at 0x10010000,
the second 0xDEADBEEF. -/
def start (a b : Word) : State :=
  let s : State :=
    { State.reset with
      pc := 0x00400000
      params := ⟨false, [⟨0x100000, 3, .code⟩, ⟨0x4004000, 2, .data⟩]⟩ }
  ((s.setX 1 a).setX 2 b).setWord 0x10010004 0xDEADBEEF

/-- One step on a word placed at `pc`. -/
def stepWord (w : Nat) (s : State) : Result := step (s.withFetchWord 32 w)

/-- A next state of which `p` holds. -/
def nextWith (p : State → Bool) : Result → Bool
  | .next t => p t
  | .fault _ => false
  | .refused _ => false

/-- A trap of this name, address and offending address. -/
def trapsWith (e : Exc) (pc : Word) (slot : Bool) (v : Option Word) : Result → Bool
  | .fault (.trap t) => t.exc == e && t.pc == pc && t.inDelaySlot == slot && t.vaddr == v
  | .fault _ => false
  | .next _ => false
  | .refused _ => false

/-- The ADD page: 5 + 7. -/
theorem test_add : nextWith (fun t => t.x 3 == 0xC && t.pc == 0x00400004)
    (stepWord 0x00221820 (start 5 7)) = true := by decide

/-- The ADD page: -1 + 1 is no overflow, 0x7FFFFFFF + 1 is, whatever rd. -/
theorem test_add_overflow :
    nextWith (fun t => t.x 3 == 0) (stepWord 0x00221820 (start 0xFFFFFFFF 1)) = true ∧
    trapsWith .integerOverflow 0x00400000 false none (stepWord 0x00220020 (start 0x7FFFFFFF 1)) = true := by
  decide

/-- The ADDI page: 0 + -1, and the overflow of 0x80000000 + -1. -/
theorem test_addi :
    nextWith (fun t => t.x 2 == 0xFFFFFFFF) (stepWord 0x2022FFFF (start 0 0)) = true ∧
    trapsWith .integerOverflow 0x00400000 false none (stepWord 0x2022FFFF (start 0x80000000 0)) = true := by
  decide

/-- The SUB page: 5 - 7, and the overflow of 0 - -2^31. -/
theorem test_sub :
    nextWith (fun t => t.x 3 == 0xFFFFFFFE) (stepWord 0x00221822 (start 5 7)) = true ∧
    trapsWith .integerOverflow 0x00400000 false none (stepWord 0x00221822 (start 0 0x80000000)) = true := by
  decide

/-- The LUI page: the old value is wholly replaced. -/
theorem test_lui : nextWith (fun t => t.x 2 == 0x12340000)
    (stepWord 0x3C021234 (start 0 0xFFFFFFFF)) = true := by decide

/-- The SLT page: signed, both ways. -/
theorem test_slt :
    nextWith (fun t => t.x 3 == 1) (stepWord 0x0022182A (start 0x80000000 0x7FFFFFFF)) = true ∧
    nextWith (fun t => t.x 3 == 0) (stepWord 0x0022182A (start 0x7FFFFFFF 0x80000000)) = true := by decide

/-- The AND, OR and XOR pages. -/
theorem test_logical :
    nextWith (fun t => t.x 3 == 0x0F000F00) (stepWord 0x00221824 (start 0xFF00FF00 0x0FF00FF0)) = true ∧
    nextWith (fun t => t.x 3 == 0xFFF0FFF0) (stepWord 0x00221825 (start 0xFF00FF00 0x0FF00FF0)) = true ∧
    nextWith (fun t => t.x 3 == 0xF0F0F0F0) (stepWord 0x00221826 (start 0xFF00FF00 0x0FF00FF0)) = true := by
  decide

/-- The SLL, SRL and ROTR pages. -/
theorem test_shifts :
    nextWith (fun t => t.x 3 == 0x23456780) (stepWord 0x00021900 (start 0 0x12345678)) = true ∧
    nextWith (fun t => t.x 3 == 0x01234567) (stepWord 0x00021902 (start 0 0x12345678)) = true ∧
    nextWith (fun t => t.x 3 == 0x81234567) (stepWord 0x00221902 (start 0 0x12345678)) = true := by decide

/-- The NOP page, and SSNOP: registers keep their values. -/
theorem test_nop :
    nextWith (fun t => t.gpr == (start 5 7).gpr && t.pc == 0x00400004) (exec .nop (start 5 7)) = true ∧
    nextWith (fun t => t.gpr == (start 5 7).gpr && t.pc == 0x00400004) (exec .ssnop (start 5 7)) = true := by
  decide

/-- The MULT page: -2^31 × -1, and 0x7FFFFFFF × 0x80000000. -/
theorem test_mult :
    nextWith (fun t => t.hi == 0 && t.lo == 0x80000000)
      (stepWord 0x00220018 (start 0x80000000 0xFFFFFFFF)) = true ∧
    nextWith (fun t => t.hi == 0xC0000000 && t.lo == 0x80000000)
      (stepWord 0x00220018 (start 0x7FFFFFFF 0x80000000)) = true := by decide

/-- The DIV page: -7 / 2 and 7 / -2. -/
theorem test_div :
    nextWith (fun t => t.lo == 0xFFFFFFFD && t.hi == 0xFFFFFFFF) (stepWord 0x0022001A (start 0xFFFFFFF9 2)) = true ∧
    nextWith (fun t => t.lo == 0xFFFFFFFD && t.hi == 1) (stepWord 0x0022001A (start 7 0xFFFFFFFE)) = true := by
  decide

/-- DIV by zero completes and draws once (R131); -2^31 / -1 (R130). -/
theorem test_div_corners :
    nextWith (fun t => t.draws == 1 && t.pc == 0x00400004) (stepWord 0x0022001A (start 7 0)) = true ∧
    nextWith (fun t => t.lo == 0x80000000 && t.hi == 0)
      (stepWord 0x0022001A (start 0x80000000 0xFFFFFFFF)) = true := by decide

/-- The MFHI and MFLO pages. -/
theorem test_moves :
    nextWith (fun t => t.x 3 == 0x11112222)
      (stepWord 0x00001810 ((start 0 0).setHiLo 0x11112222 0x33334444)) = true ∧
    nextWith (fun t => t.x 3 == 0x33334444)
      (stepWord 0x00001812 ((start 0 0).setHiLo 0x11112222 0x33334444)) = true := by decide

/-- The BEQ page, taken and not taken. -/
theorem test_beq :
    nextWith (fun t => t.pc == 0x00400004 && t.delay == .taken 0x00400010)
      (stepWord 0x10220003 (start 7 7)) = true ∧
    nextWith (fun t => t.pc == 0x00400004 && t.delay == .notTaken) (stepWord 0x10220003 (start 7 8)) = true := by
  decide

/-- The BNE page's example, moved to pc 0x00400000. -/
theorem test_bne :
    nextWith (fun t => t.delay == .taken 0x003FFFFC) (stepWord 0x1420FFFE (start 1 0)) = true ∧
    nextWith (fun t => t.delay == .notTaken) (stepWord 0x1420FFFE (start 0 0)) = true := by decide

/-- The BGTZ page: 1 is taken, 0 and 0x80000000 are not. -/
theorem test_bgtz :
    nextWith (fun t => t.delay == .taken 0x0040000C) (stepWord 0x1C200002 (start 1 0)) = true ∧
    nextWith (fun t => t.delay == .notTaken) (stepWord 0x1C200002 (start 0 0)) = true ∧
    nextWith (fun t => t.delay == .notTaken) (stepWord 0x1C200002 (start 0x80000000 0)) = true := by decide

/-- The BLEZ page: 0 and 0x80000000 are taken, 1 is not. -/
theorem test_blez :
    nextWith (fun t => t.delay == .taken 0x0040000C) (stepWord 0x18200002 (start 0 0)) = true ∧
    nextWith (fun t => t.delay == .taken 0x0040000C) (stepWord 0x18200002 (start 0x80000000 0)) = true ∧
    nextWith (fun t => t.delay == .notTaken) (stepWord 0x18200002 (start 1 0)) = true := by decide

/-- The J page: the plain example, and the last word of a 256 MB region. -/
theorem test_j :
    nextWith (fun t => t.delay == .taken 0x00400100) (stepWord 0x08100040 (start 0 0)) = true ∧
    nextWith (fun t => t.delay == .taken 0x10000040)
      (stepWord 0x08000010 { start 0 0 with pc := 0x0FFFFFFC }) = true := by decide

/-- The JAL page. -/
theorem test_jal : nextWith (fun t => t.delay == .taken 0x00400100 && t.x 31 == 0x00400008)
    (stepWord 0x0C100040 (start 0 0)) = true := by decide

/-- The JR page's example with register 1: all 32 bits are the target. -/
theorem test_jr : nextWith (fun t => t.pc == 0x00400004 && t.delay == .taken 0x0040000A)
    (stepWord 0x00200008 (start 0x0040000A 0)) = true := by decide

/-- The LW page: the example, and a misaligned address. -/
theorem test_lw :
    nextWith (fun t => t.x 2 == 0xDEADBEEF) (stepWord 0x8C220004 (start 0x10010000 0)) = true ∧
    trapsWith .addressError 0x00400000 false (some 0x10010002)
      (stepWord 0x8C220002 (start 0x10010000 0)) = true := by decide

/-- The SW page's example at offset 0, and base 0 with offset -3: misaligned, after the wrap of R150. -/
theorem test_sw :
    nextWith (fun t => t.word 0x10010000 == 0xCAFEBABE && t.word 0x10010004 == 0xDEADBEEF)
      (stepWord 0xAC220000 (start 0x10010000 0xCAFEBABE)) = true ∧
    trapsWith .addressError 0x00400000 false (some 0xFFFFFFFD) (stepWord 0xAC22FFFD (start 0 0)) = true := by
  decide

/-- The SYSCALL page: code 0, and code 0xFFFFF in a delay slot. -/
theorem test_syscall :
    trapsWith .systemCall 0x00400000 false none (stepWord 0x0000000C (start 0 0)) = true ∧
    trapsWith .systemCall 0x00400000 true none
      (stepWord 0x03FFFFCC { start 0 0 with delay := .notTaken }) = true := by decide

/-- R30 step 8: after a delay slot control is at the pending target. -/
theorem test_delay_slot : nextWith (fun t => t.pc == 0x00400100 && t.delay == .none)
    (stepWord 0x00221820 { start 5 7 with delay := .taken 0x00400100 }) = true := by decide

/-! ### Witnesses of the statements' hypotheses -/

/-- The state of a next outcome. -/
def after : Result → State
  | .next t => t
  | .fault _ => State.reset
  | .refused _ => State.reset

/-- The outcome is a next state. -/
def isNext : Result → Bool
  | .next _ => true
  | .fault _ => false
  | .refused _ => false

theorem next_after {r : Result} (h : isNext r = true) : r = .next (after r) := by
  cases r <;> simp_all [isNext, after]

/-- The fault of a stop. -/
def faultOf : Result → Option Fault
  | .fault f => some f
  | .next _ => none
  | .refused _ => none

theorem fault_of {r : Result} {f : Fault} (h : faultOf r = some f) : r = .fault f := by
  cases r <;> simp_all [faultOf]

/-- `start` with a word placed at `pc`. -/
def at_ (w : Nat) (a b : Word) : State := (start a b).withFetchWord 32 w

theorem witness_DecodeInvertsEncode : (Instr.add 3 1 2).wellFormed = true := by decide

theorem witness_DecodedWordIsItsEncoding : decode 0x00221820#32 = some (.add 3 1 2) := by decide

theorem witness_DecodeFollowsOpcodeTable_row :
    ∃ r ∈ opcodeTable, 0x00221902#32 &&& r.mask = r.pattern ∧ r.mnemonic = "ROTR" := by decide

theorem witness_DecodeFollowsOpcodeTable_none :
    ∀ r ∈ opcodeTable, 0x00421902#32 &&& r.mask ≠ r.pattern := by decide

theorem witness_NoWordMatchesTwoRows :
    ∃ r q, r ∈ opcodeTable ∧ q ∈ opcodeTable ∧
      0x00000000#32 &&& r.mask = r.pattern ∧ 0x00000000#32 &&& q.mask = q.pattern :=
  ⟨⟨"SLL", 0, 0xFFE0003F⟩, ⟨"SLL", 0, 0xFFE0003F⟩, by decide, by decide, by decide, by decide⟩

/-- The largest sum that fits and the smallest that does not. -/
theorem witness_AddWritesExactSumOrTraps :
    FitsWord (((start 0x7FFFFFFE 1).x 1).toInt + ((start 0x7FFFFFFE 1).x 2).toInt) ∧
    ¬ FitsWord (((start 0x7FFFFFFF 1).x 1).toInt + ((start 0x7FFFFFFF 1).x 2).toInt) :=
  ⟨⟨by decide, by decide⟩, fun h => absurd h.2 (by decide)⟩

/-- The smallest sum that fits and the largest below it. -/
theorem witness_AddiWritesExactSumOrTraps :
    FitsWord (((start 0x80008000 0).x 1).toInt + (0x8000#16).toInt) ∧
    ¬ FitsWord (((start 0x80007FFF 0).x 1).toInt + (0x8000#16).toInt) :=
  ⟨⟨by decide, by decide⟩, fun h => absurd h.1 (by decide)⟩

theorem witness_SubWritesExactDifferenceOrTraps :
    FitsWord (((start 0xFFFFFFFF 0x80000000).x 1).toInt - ((start 0xFFFFFFFF 0x80000000).x 2).toInt) ∧
    ¬ FitsWord (((start 0 0x80000000).x 1).toInt - ((start 0 0x80000000).x 2).toInt) :=
  ⟨⟨by decide, by decide⟩, fun h => absurd h.2 (by decide)⟩

/-- The premise on the divisor: the overflow case, and its neighbour in the other case. -/
theorem witness_DivLeavesQuotientAndRemainder :
    ((start 0x80000000 0xFFFFFFFF).x 2 ≠ 0#32 ∧ (start 0x80000000 0xFFFFFFFF).x 1 = 0x80000000#32 ∧
      (start 0x80000000 0xFFFFFFFF).x 2 = 0xFFFFFFFF#32) ∧
    (start 0x80000001 0xFFFFFFFF).x 2 ≠ 0#32 ∧ (start 0x80000001 0xFFFFFFFF).x 1 ≠ 0x80000000#32 := by decide

theorem witness_DivByZeroCompletesWithFreeValues : (start 7 0).x 2 = 0#32 := by decide

theorem witness_MoveAfterMultReadsProduct : (31#5 : RegNum) ≠ 0#5 := by decide

/-- Equal and unequal registers, outside a delay slot. -/
theorem witness_BeqBneBranchOnEquality :
    (start 7 7).delay = .none ∧ (start 7 7).x 1 = (start 7 7).x 2 ∧
    (start 7 8).delay = .none ∧ (start 7 8).x 1 ≠ (start 7 8).x 2 := by decide

/-- At 1, 0 and the most negative value. -/
theorem witness_BgtzBranchesWhenPositive :
    (start 1 0).delay = .none ∧ 0 < ((start 1 0).x 1).toInt ∧ ¬ 0 < ((start 0 0).x 1).toInt ∧
    ¬ 0 < ((start 0x80000000 0).x 1).toInt := by decide

theorem witness_BlezBranchesWhenNotPositive :
    (start 0 0).delay = .none ∧ (start 0 0).x 1 = 0#32 ∧
    ((start 0x80000000 0).x 1).getLsbD 31 = true ∧
    ¬ (((start 1 0).x 1).getLsbD 31 = true ∨ (start 1 0).x 1 = 0#32) := by decide

theorem witness_JumpsGoWithinTheRegion : { start 0 0 with pc := 0x0FFFFFFC }.delay = .none := by decide

theorem witness_JrJumpsToWholeRegister : (start 0xFFFFFFFF 0).delay = .none := by decide

/-- JR to a misaligned address, and its delay slot completes. -/
theorem witness_MisalignedJrTargetTrapsAtItsFetch :
    ∃ s t u, s.delay = .none ∧ exec (.jr 1) s = .next t ∧ step t = .next u ∧ (s.x 1).toNat % 4 ≠ 0 :=
  ⟨start 0x0040000A 0, after (exec (.jr 1) (start 0x0040000A 0)),
    after (step (after (exec (.jr 1) (start 0x0040000A 0)))), by decide, next_after (by decide),
    next_after (by decide), by decide⟩

/-- Both sides hold of a BEQ in a slot, and neither of an ADD there. -/
theorem witness_BranchInDelaySlotIsUnpredictable :
    (let s : State := { start 0 0 with delay := .notTaken }
     exec (.beq 1 2 0) s = .fault (.unpredictable .branchInDelaySlot s) ∧
       isBranchOrJump (.beq 1 2 0) = true ∧ s.delay ≠ .none) ∧
    isBranchOrJump (.add 1 2 3) = false :=
  ⟨⟨rfl, by decide, by decide⟩, by decide⟩

/-- A BEQ that completes with a SYSCALL in its delay slot. -/
theorem witness_BranchesWriteNothingAndNeverTrap :
    ∃ s t tr, s.delay = .none ∧ exec (.beq 1 2 1) s = .next t ∧ step t = .fault (.trap tr) := by
  let s : State := { at_ 0x0000000C 1 1 with pc := 0x003FFFFC }
  let t : State := after (exec (.beq 1 2 1) s)
  exact ⟨s, t, ⟨.systemCall, t, 0x00400000, true, none⟩, by decide, next_after (by decide),
    fault_of (by decide)⟩

/-- The last data word. -/
theorem witness_LwLoadsTheAddressedWord :
    effectiveAddress 4 1 (start 0x10010000 0) = 0x10010004#32 ∧ (0x10010004#32).toNat % 4 = 0 ∧
    (start 0x10010000 0).inData 0x10010004#32 = true := by decide

/-- The first data word. -/
theorem witness_SwStoresOneWord :
    effectiveAddress 0xFFFC 1 (start 0x10010004 9) = 0x10010000#32 ∧ (0x10010000#32).toNat % 4 = 0 ∧
    (start 0x10010004 9).inData 0x10010000#32 = true := by decide

theorem witness_MisalignedAccessRaisesAddressError :
    effectiveAddress 1 1 (start 0x10010000 0) = 0x10010001#32 ∧ (0x10010001#32).toNat % 4 ≠ 0 ∧
    { start 0 0 with pc := 0x00400003 }.pc.toNat % 4 ≠ 0 := by decide

/-- A code word, and the word just past the data. -/
theorem witness_AccessOutsideDataRegionIsNotAdmitted :
    (effectiveAddress 0 1 (start 0x00400000 0) = 0x00400000#32 ∧ (0x00400000#32).toNat % 4 = 0 ∧
      (start 0x00400000 0).inCode 0x00400000#32 = true) ∧
    effectiveAddress 8 1 (start 0x10010000 0) = 0x10010008#32 ∧ (0x10010008#32).toNat % 4 = 0 ∧
    (start 0x10010000 0).inData 0x10010008#32 = false := by decide

theorem witness_LoadAfterStoreReturnsTheValue :
    aligned (effectiveAddress 4 1 (start 0x10010000 0)) = true ∧
    (start 0x10010000 0).inData (effectiveAddress 4 1 (start 0x10010000 0)) = true := by decide

/-- A trap, an unpredictable step, one outside the regions, one of a word that is no instruction. -/
theorem witness_StoppedStepRecordsTheStateBefore :
    (∃ s tr, step s = .fault (.trap tr)) ∧ (∃ s r s', step s = .fault (.unpredictable r s')) ∧
    (∃ s k a s', step s = .fault (.accessNotAdmitted k a s')) ∧ ∃ s r, step s = .refused r :=
  ⟨⟨at_ 0x0000000C 0 0, _, rfl⟩, ⟨{ at_ 0x00000008 0 0 with delay := .notTaken }, _, _, rfl⟩,
    ⟨State.reset, _, _, _, rfl⟩, ⟨at_ 0x0000000D 0 0, _, rfl⟩⟩

/-- Each of the three exceptions occurs. -/
theorem witness_EachExceptionHasItsInstructions :
    trapsWith .integerOverflow 0x00400000 false none (exec (.sub 3 1 2) (start 0 0x80000000)) = true ∧
    trapsWith .addressError 0x00400000 false (some 1) (exec (.lw 0 1 0) (start 0 0)) = true ∧
    trapsWith .systemCall 0x00400000 false none (exec (.syscall 0) (start 0 0)) = true := by decide

theorem witness_StepRunsTheDecodedInstruction :
    (at_ 0x00221820 5 7).pc.toNat % 4 = 0 ∧ (at_ 0x00221820 5 7).inCode (at_ 0x00221820 5 7).pc = true ∧
    decode (wordAtPc (at_ 0x00221820 5 7)) = some (.add 3 1 2) := by decide

/-- The word just past the code, and an Invalid word in it. -/
theorem witness_UnfetchableOrInvalidWordStops :
    ({ start 0 0 with pc := 0x0040000C }.pc.toNat % 4 = 0 ∧
      { start 0 0 with pc := 0x0040000C }.inCode 0x0040000C = false) ∧
    (at_ 0x0000000D 0 0).pc.toNat % 4 = 0 ∧ (at_ 0x0000000D 0 0).inCode (at_ 0x0000000D 0 0).pc = true ∧
    decode (wordAtPc (at_ 0x0000000D 0 0)) = none := by decide

/-- A register, HI and LO, and memory do change; and states that differ outside the sources of ADD,
of MFHI (in LO) and of MFLO (in HI). -/
theorem witness_ReadsAndWritesFollowTheTable :
    (∃ t, exec (.add 3 1 2) (start 5 7) = .next t ∧ t.x 3 ≠ (start 5 7).x 3) ∧
    (∃ t, exec (.mult 1 2) (start 5 7) = .next t ∧ t.lo ≠ (start 5 7).lo) ∧
    (∃ t, exec (.sw 2 0 1) (start 0x10010000 7) = .next t ∧
      ∃ a, t.mem.read a ≠ (start 0x10010000 7).mem.read a) ∧
    (let s := start 5 7
     let s' := (start 5 7).setX 4 9
     s'.pc = s.pc ∧ s'.delay = s.delay ∧ s'.mem = s.mem ∧ s'.params = s.params ∧ s'.draws = s.draws ∧
       (∀ r ∈ sources (.add 3 1 2), s'.x r = s.x r) ∧ readsHi (.add 3 1 2) = false ∧
       readsLo (.add 3 1 2) = false ∧ s' ≠ s) ∧
    (let s := start 5 7
     let s' := (start 5 7).setHiLo 0 9
     (∃ t, exec (.mfhi 3) s = .next t) ∧ readsHi (.mfhi 3) = true ∧ s'.hi = s.hi ∧
       readsLo (.mfhi 3) = false ∧ s'.lo ≠ s.lo) ∧
    (let s := start 5 7
     let s' := (start 5 7).setHiLo 9 0
     (∃ t, exec (.mflo 3) s = .next t) ∧ readsLo (.mflo 3) = true ∧ s'.lo = s.lo ∧
       readsHi (.mflo 3) = false ∧ s'.hi ≠ s.hi) :=
  ⟨⟨_, next_after (by decide), by decide⟩, ⟨_, next_after (by decide), by decide⟩,
    ⟨_, next_after (by decide), 0x10010000, by decide⟩, by decide,
    ⟨⟨_, next_after (by decide)⟩, by decide, by decide, by decide, by decide⟩,
    ⟨⟨_, next_after (by decide)⟩, by decide, by decide, by decide, by decide⟩⟩

/-- A step of a branch, and one of an ADD in a delay slot. -/
theorem witness_EveryStepFollowsTheDelayDiscipline :
    (∃ t, step (at_ 0x10220003 7 7) = .next t) ∧
    ∃ t, step { at_ 0x00221820 5 7 with delay := .taken 0x00400100 } = .next t :=
  ⟨⟨_, next_after (by decide)⟩, ⟨_, next_after (by decide)⟩⟩

/-- Two steps of a taken branch, and two of one not taken. -/
theorem witness_DelaySlotRunsBeforeTheTarget :
    (∃ s t u, step s = .next t ∧ t.delay = .taken 0x00400010 ∧ step t = .next u) ∧
    ∃ s t u, step s = .next t ∧ t.delay = .notTaken ∧ step t = .next u :=
  ⟨⟨at_ 0x10220003 7 7, after (step (at_ 0x10220003 7 7)), after (step (after (step (at_ 0x10220003 7 7)))),
      next_after (by decide), by decide, next_after (by decide)⟩,
    ⟨at_ 0x10220003 7 8, after (step (at_ 0x10220003 7 8)), after (step (after (step (at_ 0x10220003 7 8)))),
      next_after (by decide), by decide, next_after (by decide)⟩⟩

/-- A step in a slot with an aligned target, and a JR of a misaligned register. -/
theorem witness_OnlyJrCanMisalignThePc :
    (∃ s t, (∀ a, s.delay = .taken a → a.toNat % 4 = 0) ∧ s.delay ≠ .none ∧ step s = .next t) ∧
    ∃ s t, (∀ a, s.delay = .taken a → a.toNat % 4 = 0) ∧ step s = .next t ∧ t.delay = .taken 0x0040000A :=
  ⟨⟨{ at_ 0x00221820 5 7 with delay := .taken 0x00400100 }, _,
      fun a h => by cases h; decide, by decide, next_after (by decide)⟩,
    ⟨at_ 0x00200008 0x0040000A 0, after (step (at_ 0x00200008 0x0040000A 0)), (fun _ h => by cases h),
      next_after (by decide), by decide⟩⟩

/-- A storing step from a state of the invariant. -/
theorem witness_StepKeepsTheInvariant :
    ∃ s t, s.Inv ∧ step s = .next t ∧ t.mem ≠ s.mem :=
  ⟨at_ 0xAC220000 0x10010000 7, _, ⟨by decide, by decide⟩, next_after (by decide), by decide⟩

/-- Two steps of a run, with code in it. -/
theorem witness_ProgramTextNeverChanges :
    ∃ s t, Host.Core.run Sys2Proof.core 2 s = .next t ∧ s.inCode 0x00400008 = true :=
  ⟨at_ 0xAC220000 0x10010000 7, _, next_after (r := Host.Core.run Sys2Proof.core 2 _) (by decide), by decide⟩

/-- One word of code under either byte order, all other memory zero. -/
theorem witness_ByteOrderIsUnobservable :
    ∃ s s' t, SameButByteOrder s s' ∧ s'.params ≠ s.params ∧ s'.mem ≠ s.mem ∧ step s = .next t := by
  let m : MemoryMap := [⟨0, 1, .code⟩]
  let s : State := { State.reset with params := ⟨false, m⟩ }.setWord 0#32 0x00221820#32
  let s' : State := { State.reset with params := ⟨true, m⟩ }.setWord 0#32 0x00221820#32
  refine ⟨s, s', after (step s), ⟨rfl, rfl, rfl, rfl, rfl, rfl, rfl, fun a ha => ?_⟩, by decide, by decide,
    next_after (by decide)⟩
  by_cases h : a = 0#32
  · subst h
    simp [s, s']
  · have hal := (aligned_iff a).mpr ha
    have e1 := State.word_setWord_other { State.reset with params := ⟨false, m⟩ } 0#32 a 0x00221820#32
      (by decide) hal h
    have e2 := State.word_setWord_other { State.reset with params := ⟨true, m⟩ } 0#32 a 0x00221820#32
      (by decide) hal h
    exact e2.trans e1.symm

end Sys2Proof.Tests
end

section
/-! PROOFS. What each instruction leaves, said once: when it completes, the one thing it writes, and the delay
state it leaves. Then the statements of 10_state.md. -/

namespace Sys2Proof.Proofs

open Sys2Proof Sys2Proof.Machine Sys2Proof.Claims

/-! ### The writes of an instruction -/

/-- What one instruction writes besides `pc` and `delay`: at most one of these (the table of R23). -/
inductive Effect where
  | nothing
  | register (rd : RegNum) (v : Word)
  | hiLo (hi lo : Word)
  /-- HI and LO take the next free values (R131). -/
  | draw
  | word (a v : Word)

/-- The state with the write done. -/
def Effect.apply : Effect → State → State
  | .nothing, s => s
  | .register rd v, s => s.setX rd v
  | .hiLo hi lo, s => s.setHiLo hi lo
  | .draw, s => s.drawHiLo
  | .word a v, s => s.setWord a v

/-- The register an effect writes. -/
def Effect.target : Effect → Option RegNum
  | .register rd _ => some rd
  | .nothing | .hiLo _ _ | .draw | .word _ _ => none

/-- Whether an effect writes HI and LO. -/
def Effect.setsHiLo : Effect → Bool
  | .hiLo _ _ | .draw => true
  | .nothing | .register _ _ | .word _ _ => false

@[simp] theorem Effect.apply_nextPc (e : Effect) (s : State) : (e.apply s).nextPc = s.nextPc := by
  cases e <;> rfl

/-- A register other than the target reads as before. -/
theorem Effect.apply_x_of_ne (e : Effect) (s : State) (r : RegNum) (h : e.target ≠ some r) :
    (e.apply s).x r = s.x r := by
  cases e with
  | register rd v =>
    have hr : r ≠ rd := fun hr => h (congrArg some hr.symm)
    simp [Effect.apply, State.setX_x, hr]
  | nothing | hiLo | draw | word => rfl

/-- What the target reads does not depend on the state written to. -/
theorem Effect.apply_x_target (e : Effect) (s s' : State) (r : RegNum) (h : e.target = some r) :
    (e.apply s').x r = (e.apply s).x r := by
  cases e with
  | register rd v =>
    obtain rfl : rd = r := Option.some.inj h
    by_cases h0 : rd = 0#5
    · subst h0; rfl
    · simp [Effect.apply, h0]
  | nothing | hiLo | draw | word => cases h

theorem Effect.apply_hi_lo_of_not (e : Effect) (s : State) (h : e.setsHiLo = false) :
    (e.apply s).hi = s.hi ∧ (e.apply s).lo = s.lo := by
  cases e with
  | hiLo | draw => cases h
  | nothing | register | word => exact ⟨rfl, rfl⟩

/-- What HI and LO are set to depends on the state written to by its draw counter only. -/
theorem Effect.apply_hi_lo (e : Effect) (s s' : State) (hdraws : s'.draws = s.draws)
    (h : e.setsHiLo = true) : (e.apply s').hi = (e.apply s).hi ∧ (e.apply s').lo = (e.apply s).lo := by
  cases e with
  | hiLo => exact ⟨rfl, rfl⟩
  | draw => simp [Effect.apply, hdraws]
  | nothing | register | word => cases h

theorem Effect.apply_mem_congr (e : Effect) (s s' : State) (hmem : s'.mem = s.mem)
    (hparams : s'.params = s.params) : (e.apply s').mem = (e.apply s).mem := by
  cases e with
  | word a v => simp [Effect.apply, hmem, hparams]
  | nothing | register | hiLo | draw => exact hmem

/-- Only the store of a word changes memory. -/
theorem Effect.eq_word_of_apply_mem_ne (e : Effect) (s : State) (h : (e.apply s).mem ≠ s.mem) :
    ∃ a v, e = .word a v := by
  cases e with
  | word a v => exact ⟨a, v, rfl⟩
  | nothing | register | hiLo | draw => exact absurd rfl h

/-! ### The instructions by their effect -/

/-- When an instruction completes: no overflow, an aligned and admitted access, no branch in a delay slot. -/
def Completes : Instr → State → Prop
  | .add _ rs rt, s => overflows (wide (s.x rs) + wide (s.x rt)) = false
  | .addi _ rs imm, s => overflows (wide (s.x rs) + wideImmediate imm) = false
  | .sub _ rs rt, s => overflows (wide (s.x rs) - wide (s.x rt)) = false
  | .lw _ offset base, s | .sw _ offset base, s =>
    aligned (effectiveAddress offset base s) = true ∧ s.inData (effectiveAddress offset base s) = true
  | .beq _ _ _, s | .bgtz _ _, s | .blez _ _, s | .bne _ _ _, s | .j _, s | .jal _, s | .jr _, s =>
    s.delay = .none
  | .syscall _, _ => False
  | _, _ => True

/-- DIV's writes: remainder and quotient, or free values when the divisor is zero (R130, R131). -/
def divEffect (a b : Word) : Effect :=
  if b = 0#32 then .draw else .hiLo (remainder a b) (quotient a b)

@[simp] theorem divEffect_target (a b : Word) : (divEffect a b).target = none := by
  unfold divEffect; split <;> rfl

@[simp] theorem divEffect_setsHiLo (a b : Word) : (divEffect a b).setsHiLo = true := by
  unfold divEffect; split <;> rfl

/-- What an instruction writes when it completes. -/
def effect : Instr → State → Effect
  | .add rd rs rt, s => .register rd (low32 (wide (s.x rs) + wide (s.x rt)))
  | .addi rt rs imm, s => .register rt (low32 (wide (s.x rs) + wideImmediate imm))
  | .sub rd rs rt, s => .register rd (low32 (wide (s.x rs) - wide (s.x rt)))
  | .lui rt imm, _ => .register rt (upperImmediate imm)
  | .slt rd rs rt, s => .register rd (if signedLess (s.x rs) (s.x rt) then 1#32 else 0#32)
  | .and rd rs rt, s => .register rd (s.x rs &&& s.x rt)
  | .or rd rs rt, s => .register rd (s.x rs ||| s.x rt)
  | .xor rd rs rt, s => .register rd (s.x rs ^^^ s.x rt)
  | .rotr rd rt sa, s => .register rd (rotateRight (s.x rt) sa)
  | .sll rd rt sa, s => .register rd (shiftLeft (s.x rt) sa)
  | .srl rd rt sa, s => .register rd (shiftRight (s.x rt) sa)
  | .mfhi rd, s => .register rd s.hi
  | .mflo rd, s => .register rd s.lo
  | .lw rt offset base, s => .register rt (s.word (effectiveAddress offset base s))
  | .jal _, s => .register 31#5 (linkAddress s.pc)
  | .mult rs rt, s =>
    .hiLo ((product (s.x rs) (s.x rt)).extractLsb' 32 32) ((product (s.x rs) (s.x rt)).extractLsb' 0 32)
  | .div rs rt, s => divEffect (s.x rs) (s.x rt)
  | .sw rt offset base, s => .word (effectiveAddress offset base s) (s.x rt)
  | _, _ => .nothing

/-- `new_delay` of R30 for an instruction that completes. -/
def newDelay : Instr → State → Delay
  | .beq rs rt offset, s => branchDelay (equal (s.x rs) (s.x rt)) (branchTarget s.pc offset)
  | .bgtz rs offset, s => branchDelay (positive (s.x rs)) (branchTarget s.pc offset)
  | .blez rs offset, s => branchDelay (nonPositive (s.x rs)) (branchTarget s.pc offset)
  | .bne rs rt offset, s => branchDelay (!equal (s.x rs) (s.x rt)) (branchTarget s.pc offset)
  | .j index, s | .jal index, s => .taken (jumpTarget s.pc index)
  | .jr rs, s => .taken (s.x rs)
  | _, _ => .none

/-- Everything an instruction that answers a next state does. -/
theorem exec_eq_next (i : Instr) (s t : State) :
    exec i s = .next t ↔ Completes i s ∧ t = ((effect i s).apply s).advance (newDelay i s) := by
  cases i with
  | add | addi | sub =>
    simp [exec, execAdd, execAddi, execSub, writeUnless_eq_next, Completes, effect, newDelay, Effect.apply]
  | lw => simp [exec, execLw, loadWord_eq_next, Completes, effect, newDelay, Effect.apply, and_assoc]
  | sw => simp [exec, execSw, storeWord_eq_next, Completes, effect, newDelay, Effect.apply, and_assoc]
  | beq | bgtz | blez | bne =>
    simp [exec, execBeq, execBgtz, execBlez, execBne, branchOrJump_eq_next, Completes, effect, newDelay,
      Effect.apply]
  | j | jal | jr =>
    simp [exec, execJ, execJal, execJr, branchOrJump_eq_next, Completes, effect, newDelay, Effect.apply]
  | lui | slt | and | or | xor =>
    simp [exec, execLui, execSlt, execAnd, execOr, execXor, complete_eq_next, Completes, effect, newDelay,
      Effect.apply]
  | rotr | sll | srl | nop | ssnop =>
    simp [exec, execRotr, execSll, execSrl, execNop, execSsnop, complete_eq_next, Completes, effect,
      newDelay, Effect.apply]
  | mfhi | mflo | mult =>
    simp [exec, execMfhi, execMflo, execMult, complete_eq_next, Completes, effect, newDelay, Effect.apply]
  | div rs rt =>
    by_cases h : s.x rt = 0#32 <;>
      simp [exec, execDiv, complete_eq_next, Completes, effect, divEffect, newDelay, Effect.apply, h]
  | syscall => simp [exec, execSyscall, Completes]

/-! ### The table of R23 -/

theorem effect_target (i : Instr) (s : State) : (effect i s).target = destination i := by
  cases i with
  | div rs rt => exact divEffect_target (s.x rs) (s.x rt)
  | _ => rfl

theorem effect_setsHiLo (i : Instr) (s : State) : (effect i s).setsHiLo = writesHiLo i := by
  cases i with
  | div rs rt => exact divEffect_setsHiLo (s.x rs) (s.x rt)
  | _ => rfl

/-- Only SW stores a word, at its effective address. -/
theorem eq_sw_of_effect_eq_word (i : Instr) (s : State) (a v : Word) (h : effect i s = .word a v) :
    ∃ rt offset base, i = .sw rt offset base ∧ a = effectiveAddress offset base s := by
  cases i with
  | sw rt offset base => cases h; exact ⟨rt, offset, base, rfl, rfl⟩
  | div rs rt =>
    have hset := divEffect_setsHiLo (s.x rs) (s.x rt)
    rw [show divEffect (s.x rs) (s.x rt) = .word a v from h] at hset
    cases hset
  | _ => cases h

/-- A second state that agrees with the first on all that `i` may read (the table of R23). -/
structure AgreeOnReads (i : Instr) (s s' : State) : Prop where
  pc : s'.pc = s.pc
  delay : s'.delay = s.delay
  mem : s'.mem = s.mem
  params : s'.params = s.params
  draws : s'.draws = s.draws
  x : ∀ r ∈ sources i, s'.x r = s.x r
  hi : readsHi i = true → s'.hi = s.hi
  lo : readsLo i = true → s'.lo = s.lo

section
variable {i : Instr} {s s' : State}

theorem AgreeOnReads.word (h : AgreeOnReads i s s') (a : Word) : s'.word a = s.word a := by
  simp [State.word, h.mem, h.params]

theorem AgreeOnReads.inData (h : AgreeOnReads i s s') (a : Word) : s'.inData a = s.inData a := by
  simp [State.inData, h.params]

theorem AgreeOnReads.nextPc (h : AgreeOnReads i s s') : s'.nextPc = s.nextPc := by
  simp [State.nextPc, h.pc, h.delay]

theorem AgreeOnReads.completes_iff (h : AgreeOnReads i s s') : Completes i s' ↔ Completes i s := by
  have hx := h.x
  cases i with
  | add | addi | sub => simp_all [Completes, sources]
  | lw | sw => simp_all [Completes, sources, effectiveAddress, h.inData]
  | beq | bgtz | blez | bne | j | jal | jr => simp [Completes, h.delay]
  | _ => rfl

theorem AgreeOnReads.effect_eq (h : AgreeOnReads i s s') : effect i s' = effect i s := by
  have hx := h.x
  cases i with
  | mfhi => simp [effect, h.hi rfl]
  | mflo => simp [effect, h.lo rfl]
  | jal => simp [effect, h.pc]
  | lw => simp_all [effect, sources, effectiveAddress, h.word]
  | _ => simp_all [effect, sources, effectiveAddress]

theorem AgreeOnReads.newDelay_eq (h : AgreeOnReads i s s') : newDelay i s' = newDelay i s := by
  have hx := h.x
  cases i with
  | beq | bgtz | blez | bne | jr => simp_all [newDelay, sources, h.pc]
  | j | jal => simp [newDelay, h.pc]
  | _ => rfl

end

/-- The bytes a completing instruction changes: the four SW stores. -/
theorem exec_mem_read_ne (i : Instr) (s : State) (b : Nat) (hc : Completes i s)
    (hb : ((effect i s).apply s).mem.read b ≠ s.mem.read b) :
    ∃ rt offset base, i = .sw rt offset base ∧
      (effectiveAddress offset base s).toNat ≤ b ∧ b < (effectiveAddress offset base s).toNat + 4 := by
  obtain ⟨a, v, he⟩ := (effect i s).eq_word_of_apply_mem_ne s fun h => hb (by rw [h])
  obtain ⟨rt, offset, base, rfl, rfl⟩ := eq_sw_of_effect_eq_word i s a v he
  obtain ⟨ha, -⟩ := hc
  refine ⟨rt, offset, base, rfl, ?_⟩
  by_contra hout
  exact hb (Memory.read_writeWord_outside _ _ _ _ b ha (by omega))

/-- Settles O42: an instruction's effect is the table's row, and equal in states that agree on its reads. -/
theorem readsAndWritesFollowTheTable : Obligations.ReadsAndWritesFollowTheTable := by
  intro i s t ht
  obtain ⟨hc, rfl⟩ := (exec_eq_next i s t).mp ht
  refine ⟨fun r hr => ?_, fun hne => ?_, fun b hb => exec_mem_read_ne i s b hc hb, ?_⟩
  · by_contra hd
    exact hr ((effect i s).apply_x_of_ne s r (effect_target i s ▸ hd))
  · by_contra hw
    obtain ⟨hhi, hlo⟩ := (effect i s).apply_hi_lo_of_not s
      ((effect_setsHiLo i s).trans (Bool.eq_false_iff.mpr hw))
    exact hne.elim (· hhi) (· hlo)
  · intro s' hpc hdelay hmem hparams hdraws hx hhi hlo
    have h : AgreeOnReads i s s' := ⟨hpc, hdelay, hmem, hparams, hdraws, hx, hhi, hlo⟩
    refine ⟨_, (exec_eq_next i s' _).mpr ⟨h.completes_iff.mpr hc, rfl⟩, ?_⟩
    rw [h.effect_eq, h.newDelay_eq]
    refine ⟨by simp [h.nextPc], rfl, (effect i s).apply_mem_congr s s' hmem hparams, fun r hr => ?_,
      fun hw => ?_⟩
    · exact (effect i s).apply_x_target s s' r ((effect_target i s).trans hr)
    · exact (effect i s).apply_hi_lo s s' hdraws ((effect_setsHiLo i s).trans hw)

/-! ### The instruction cycle -/

/-- On an aligned `pc` the four bytes there are the word fetched (R46). -/
theorem wordAtPc_eq_fetch (s : State) (h : aligned s.pc = true) : wordAtPc s = s.fetch s.pc := by
  simp [wordAtPc, State.fetch, State.word, Memory.readWord, byteAddr_of_aligned s.pc h]

/-- Everything a step that answers a next state does: steps 1 to 4 of R30, then the instruction. -/
theorem step_eq_next (s t : State) :
    step s = .next t ↔ aligned s.pc = true ∧ s.inCode s.pc = true ∧
      ∃ i, decode (wordAtPc s) = some i ∧ exec i s = .next t := by
  rw [step, fetchThen_eq_next]
  exact and_congr_right fun h => by rw [wordAtPc_eq_fetch s h]

/-- Settles O40: with the checks of R30 steps 1 to 3 passed, the step is the decoded instruction's meaning. -/
theorem stepRunsTheDecodedInstruction : Obligations.StepRunsTheDecodedInstruction := by
  intro s i hpc hcode hdec
  have ha : aligned s.pc = true := (aligned_iff s.pc).mpr hpc
  rw [wordAtPc_eq_fetch s ha] at hdec
  simp [step, fetchThen, ha, hcode, hdec]

/-! ### The delay discipline (R30, R31) -/

theorem branchDelay_ne_none (c : Bool) (a : Word) : branchDelay c a ≠ .none := by
  cases c <;> simp [branchDelay]

theorem newDelay_eq_none_iff (i : Instr) (s : State) : newDelay i s = .none ↔ isBranchOrJump i = false := by
  cases i with
  | beq | bgtz | blez | bne => simp [newDelay, isBranchOrJump, branchDelay_ne_none]
  | _ => simp [newDelay, isBranchOrJump]

theorem Completes.delay_eq_none {i : Instr} {s : State} (h : Completes i s)
    (hi : isBranchOrJump i = true) : s.delay = .none := by
  cases i with
  | beq | bgtz | blez | bne | j | jal | jr => exact h
  | _ => cases hi

theorem following_eq_nextPc (s : State) : following s = s.nextPc := rfl

/-- Settles O43: by the class of the instruction, from what a completing instruction does. -/
theorem everyStepFollowsTheDelayDiscipline : Obligations.EveryStepFollowsTheDelayDiscipline := by
  intro s t h
  obtain ⟨-, -, i, hdec, hexec⟩ := (step_eq_next s t).mp h
  obtain ⟨hc, rfl⟩ := (exec_eq_next i s t).mp hexec
  refine ⟨i, hdec, fun hi => ?_, fun hi => ?_⟩
  · have hd := hc.delay_eq_none hi
    refine ⟨hd, fun hn => ?_, by simp [State.nextPc_of_none s hd]⟩
    simp [(newDelay_eq_none_iff i s).mp hn] at hi
  · exact ⟨(newDelay_eq_none_iff i s).mpr hi, by simp [following_eq_nextPc]⟩

/-- Settles O44, from the discipline of each of the two steps: the first is a branch's, since a transfer is
pending after it, and the second is not, since a branch does not complete in a delay slot. -/
theorem delaySlotRunsBeforeTheTarget : Obligations.DelaySlotRunsBeforeTheTarget := by
  intro s t u hst hpending htu
  obtain ⟨i, -, hbranch, hother⟩ := everyStepFollowsTheDelayDiscipline s t hst
  have hi : isBranchOrJump i = true := by
    by_contra hi
    exact hpending (hother (Bool.eq_false_iff.mpr hi)).1
  obtain ⟨-, -, htpc⟩ := hbranch hi
  obtain ⟨j, -, hslot, hnext⟩ := everyStepFollowsTheDelayDiscipline t u htu
  have hj : isBranchOrJump j = false := Bool.eq_false_iff.mpr fun hj => hpending (hslot hj).1
  obtain ⟨hud, hupc⟩ := hnext hj
  rw [following_eq_nextPc] at hupc
  refine ⟨hud, fun a ha => hupc.trans (State.nextPc_of_taken t a ha), fun hn => ?_⟩
  rw [hupc, State.nextPc_of_notTaken t hn, htpc, BitVec.add_assoc]
  rfl

/-! ### Alignment of the pc (R33) -/

theorem branchTarget_mod_four (pc : Word) (offset : BitVec 16) (h : pc.toNat % 4 = 0) :
    (branchTarget pc offset).toNat % 4 = 0 := by
  have ho := branchOffset_mod_four offset
  simp only [branchTarget, BitVec.toNat_add, BitVec.toNat_ofNat]
  omega

theorem jumpTarget_mod_four (pc : Word) (index : BitVec 26) : (jumpTarget pc index).toNat % 4 = 0 := by
  have h : (jumpTarget pc index).toNat =
      ((pc + 4#32).extractLsb' 28 4 ++ index).toNat <<< 2 ||| (0#2).toNat := BitVec.toNat_append _ _
  simp [h, Nat.shiftLeft_eq]

theorem nextPc_mod_four (s : State) (hpc : s.pc.toNat % 4 = 0)
    (hd : ∀ a, s.delay = .taken a → a.toNat % 4 = 0) : s.nextPc.toNat % 4 = 0 := by
  have hseq : (s.pc + 4#32).toNat % 4 = 0 := by
    rw [BitVec.toNat_add, BitVec.toNat_ofNat]
    omega
  cases h : s.delay with
  | none => rwa [State.nextPc_of_none s h]
  | notTaken => rwa [State.nextPc_of_notTaken s h]
  | taken a => rw [State.nextPc_of_taken s a h]; exact hd a h

theorem eq_of_branchDelay_eq_taken {c : Bool} {a b : Word} (h : branchDelay c b = .taken a) : a = b := by
  cases c <;> simp_all [branchDelay]

/-- The targets of branches, J and JAL are aligned; JR takes its register's. -/
theorem newDelay_taken (i : Instr) (s : State) (a : Word) (hpc : s.pc.toNat % 4 = 0)
    (h : newDelay i s = .taken a) : a.toNat % 4 = 0 ∨ ∃ rs, i = .jr rs ∧ a = s.x rs := by
  cases i with
  | beq | bgtz | blez | bne =>
    rw [eq_of_branchDelay_eq_taken h]
    exact .inl (branchTarget_mod_four s.pc _ hpc)
  | j index | jal index => cases h; exact .inl (jumpTarget_mod_four s.pc index)
  | jr rs => cases h; exact .inr ⟨rs, rfl, rfl⟩
  | _ => cases h

/-- Settles O45: `pc` moves by 4 or to the pending target, and only JR's new target comes from a register. -/
theorem onlyJrCanMisalignThePc : Obligations.OnlyJrCanMisalignThePc := by
  intro s t hpending h
  obtain ⟨ha, -, i, hdec, hexec⟩ := (step_eq_next s t).mp h
  obtain ⟨-, rfl⟩ := (exec_eq_next i s t).mp hexec
  have hpc := (aligned_iff s.pc).mp ha
  refine ⟨by simpa using nextPc_mod_four s hpc hpending, ?_⟩
  by_cases hbad : ∃ a, newDelay i s = .taken a ∧ a.toNat % 4 ≠ 0
  · obtain ⟨a, hta, ha4⟩ := hbad
    obtain hgood | ⟨rs, rfl, rfl⟩ := newDelay_taken i s a hpc hta
    · exact absurd hgood ha4
    · exact .inr ⟨rs, hdec, hta, ha4⟩
  · exact .inl fun a hta => of_not_not fun ha4 => hbad ⟨a, hta, ha4⟩

/-! ### The launch (R36 to R39) -/

theorem ofLaunch_inv (l : Launch) : (State.ofLaunch l).Inv :=
  ⟨Memory.ofImage_wf l.image, by simp [State.ofLaunch]⟩

theorem ofLaunch_x (l : Launch) (r : RegNum) :
    (State.ofLaunch l).x r = if r = 0#5 then 0#32 else l.gpr[r.toNat]'r.isLt := by
  unfold State.x State.ofLaunch
  split
  · rfl
  · next h =>
    have hr : 0 ≠ r.toNat := fun e => h (BitVec.eq_of_toNat_eq e.symm)
    simp [hr]

/-- Settles O47; the reset state is itself a launch. -/
theorem everyLaunchMeetsTheInvariant : Obligations.EveryLaunchMeetsTheInvariant :=
  ⟨fun l => ⟨ofLaunch_inv l, rfl, rfl, rfl, rfl, rfl, ofLaunch_x l⟩,
    State.reset_eq_ofLaunch ▸ ofLaunch_inv _, rfl, State.x_zero _⟩

end Sys2Proof.Proofs
end

section
/-! PROOFS. The statements of 20_memory.md: what an effect keeps, that the byte order is unobservable, and what
LW, SW and a fetch do where they complete and where they stop. -/

namespace Sys2Proof.Proofs

open Sys2Proof Sys2Proof.Machine Sys2Proof.Claims

/-! ### What a completing step is -/

/-- A step that answers a next state is the write and the move of a completing instruction. -/
theorem exists_effect_of_step {s t : State} (h : step s = .next t) :
    ∃ i, Completes i s ∧ t = ((effect i s).apply s).advance (newDelay i s) := by
  obtain ⟨-, -, i, -, hexec⟩ := (step_eq_next s t).mp h
  exact ⟨i, (exec_eq_next i s t).mp hexec⟩

/-- A completing instruction stores only to an aligned address of DataRegion (R43, R48). -/
theorem Completes.word_admitted {i : Instr} {s : State} {a v : Word} (hc : Completes i s)
    (he : effect i s = .word a v) : aligned a = true ∧ s.inData a = true := by
  obtain ⟨rt, offset, base, rfl, rfl⟩ := eq_sw_of_effect_eq_word i s a v he
  exact hc

/-! ### The invariant of the state (R22, R45) -/

/-- No effect breaks the canonical form or writes the slot of register 0. -/
theorem Effect.apply_inv (e : Effect) {s : State} (h : s.Inv) : (e.apply s).Inv := by
  obtain ⟨hmem, hzero⟩ := h
  cases e with
  | register rd v => exact ⟨hmem, (s.setX_gpr_zero rd v).trans hzero⟩
  | word a v => exact ⟨Memory.writeWord_wf _ _ a v hmem, hzero⟩
  | nothing | hiLo | draw => exact ⟨hmem, hzero⟩

/-- Settles O46: every effect keeps the invariant, and the move of `pc` and `delay` touches neither part. -/
theorem stepKeepsTheInvariant : Obligations.StepKeepsTheInvariant := by
  intro s t hinv h
  obtain ⟨i, -, rfl⟩ := exists_effect_of_step h
  exact (effect i s).apply_inv hinv

/-! ### Program text (R51) -/

@[simp] theorem Effect.apply_params (e : Effect) (s : State) : (e.apply s).params = s.params := by
  cases e <;> rfl

/-- An effect that stores only to DataRegion leaves every word of CodeRegion. -/
theorem Effect.apply_word_of_inCode (e : Effect) (s : State) (b : Word)
    (he : ∀ a v, e = .word a v → aligned a = true ∧ s.inData a = true) (hb : s.inCode b = true) :
    (e.apply s).word b = s.word b := by
  cases e with
  | word a v =>
    obtain ⟨ha, hdata⟩ := he a v rfl
    have hne : b ≠ a := by
      rintro rfl
      simp [s.not_inData_of_inCode b hb] at hdata
    exact s.word_setWord_other a b v ha (s.aligned_of_inCode b hb) hne
  | nothing | register | hiLo | draw => rfl

/-- The launch parameters, and the words of the first state's CodeRegion, are the first state's. -/
structure SameProgram (s t : State) : Prop where
  params : t.params = s.params
  word : ∀ a, s.inCode a = true → t.word a = s.word a

theorem SameProgram.refl (s : State) : SameProgram s s := ⟨rfl, fun _ _ => rfl⟩

theorem SameProgram.inCode {s t : State} (h : SameProgram s t) (a : Word) : t.inCode a = s.inCode a := by
  simp [State.inCode, h.params]

theorem SameProgram.trans {s t u : State} (h : SameProgram s t) (h' : SameProgram t u) : SameProgram s u :=
  ⟨h'.params.trans h.params, fun a ha => (h'.word a ((h.inCode a).trans ha)).trans (h.word a ha)⟩

/-- A step stores only to DataRegion, so that it leaves the program. -/
theorem sameProgram_of_step {s t : State} (h : step s = .next t) : SameProgram s t := by
  obtain ⟨i, hc, rfl⟩ := exists_effect_of_step h
  exact ⟨(effect i s).apply_params s, fun b hb =>
    (effect i s).apply_word_of_inCode s b (fun _ _ => hc.word_admitted) hb⟩

/-- Settles O48: having the program of the first state is kept by every step, so by every run. -/
theorem programTextNeverChanges : Obligations.ProgramTextNeverChanges := by
  intro k s t hrun
  have h : SameProgram s t := run_keeps (SameProgram s)
    (fun _ _ hu hstep => hu.trans (sameProgram_of_step hstep)) k s t (.refl s) hrun
  exact ⟨h.params, fun a ha => ⟨(h.inCode a).trans ha, h.word a ha⟩⟩

/-! ### The byte order (R44) -/

/-- The state with its memory laid out as `m`, under the byte order `be`. -/
def withLayout (m : Memory) (be : Bool) (s : State) : State :=
  { s with mem := m, params := { bigEndian := be, map := s.params.map } }

/-- Two states are the same but for the byte order when one is the other laid out anew, word for word. -/
theorem sameButByteOrder_iff (s s' : State) :
    SameButByteOrder s s' ↔
      ∃ m be, s' = withLayout m be s ∧ ∀ a, aligned a = true → s'.word a = s.word a := by
  simp only [aligned_iff]
  constructor
  · rintro ⟨hgpr, hhi, hlo, hpc, hdelay, hdraws, hmap, hword⟩
    refine ⟨s'.mem, s'.params.bigEndian, ?_, hword⟩
    rw [withLayout, ← hgpr, ← hhi, ← hlo, ← hpc, ← hdelay, ← hdraws, ← hmap]
  · rintro ⟨m, be, rfl, hword⟩
    exact ⟨rfl, rfl, rfl, rfl, rfl, rfl, rfl, hword⟩

section
variable (m : Memory) (be : Bool) (s : State)

/-- No instruction looks at the layout to see whether it completes. -/
theorem completes_withLayout (i : Instr) : Completes i (withLayout m be s) ↔ Completes i s := by
  cases i <;> rfl

theorem newDelay_withLayout (i : Instr) : newDelay i (withLayout m be s) = newDelay i s := by
  cases i <;> rfl

/-- The one instruction whose effect depends on memory is LW, through a whole aligned word. -/
theorem effect_withLayout (i : Instr) (hc : Completes i s)
    (hword : ∀ a, aligned a = true → (withLayout m be s).word a = s.word a) :
    effect i (withLayout m be s) = effect i s := by
  cases i with
  | lw rt offset base =>
    obtain ⟨ha, -⟩ := hc
    exact congrArg (Effect.register rt) (hword (effectiveAddress offset base s) ha)
  | _ => rfl

/-- An effect reaches memory and nothing else through the layout. -/
theorem Effect.apply_withLayout (e : Effect) :
    ∃ m', e.apply (withLayout m be s) = withLayout m' be (e.apply s) := by
  cases e with
  | word a v => exact ⟨m.writeWord be a v, rfl⟩
  | nothing | register | hiLo | draw => exact ⟨m, rfl⟩

end

/-- The same effect on the same words leaves the same words. -/
theorem Effect.apply_word_congr (e : Effect) (s s' : State)
    (he : ∀ a v, e = .word a v → aligned a = true)
    (hword : ∀ a, aligned a = true → s'.word a = s.word a) (b : Word) (hb : aligned b = true) :
    (e.apply s').word b = (e.apply s).word b := by
  cases e with
  | word a v =>
    by_cases h : b = a
    · subst h
      simp only [Effect.apply, State.word_setWord]
    · have ha := he a v rfl
      calc (s'.setWord a v).word b
          = s'.word b := s'.word_setWord_other a b v ha hb h
        _ = s.word b := hword b hb
        _ = (s.setWord a v).word b := (s.word_setWord_other a b v ha hb h).symm
  | nothing | register | hiLo | draw => exact hword b hb

/-- Settles O49: in both states the same instruction is fetched, completes, and has the same effect on the same
words. -/
theorem byteOrderIsUnobservable : Obligations.ByteOrderIsUnobservable := by
  intro s s' t hsame h
  obtain ⟨m, be, rfl, hword⟩ := (sameButByteOrder_iff s s').mp hsame
  obtain ⟨ha, hcode, i, hdec, hexec⟩ := (step_eq_next s t).mp h
  obtain ⟨hc, rfl⟩ := (exec_eq_next i s t).mp hexec
  have hfetch : wordAtPc (withLayout m be s) = wordAtPc s := by
    rw [wordAtPc_eq_fetch (withLayout m be s) ha, wordAtPc_eq_fetch s ha]
    exact hword s.pc ha
  have hexec' : exec i (withLayout m be s) =
      .next (((effect i s).apply (withLayout m be s)).advance (newDelay i s)) :=
    (exec_eq_next i _ _).mpr ⟨(completes_withLayout m be s i).mpr hc,
      by rw [effect_withLayout m be s i hc hword, newDelay_withLayout]⟩
  have hstep := (step_eq_next (withLayout m be s) _).mpr ⟨ha, hcode, i, hfetch ▸ hdec, hexec'⟩
  obtain ⟨m', hm'⟩ := (effect i s).apply_withLayout m be s
  refine ⟨_, hstep, (sameButByteOrder_iff _ _).mpr ⟨m', be, ?_, fun b hb => ?_⟩⟩
  · exact congrArg (·.advance (newDelay i s)) hm'
  · exact (effect i s).apply_word_congr s _ (fun _ _ he => (hc.word_admitted he).1) hword b hb

/-! ### LW and SW that complete (R150 to R153) -/

/-- The bytes of an aligned word stand at its address and the three after it (R44). -/
theorem word_eq_of_aligned (s : State) (a : Word) (h : aligned a = true) :
    s.word a = wordOfBytes s.params.bigEndian (s.mem.read a.toNat) (s.mem.read (a.toNat + 1))
      (s.mem.read (a.toNat + 2)) (s.mem.read (a.toNat + 3)) := by
  simp [State.word, Memory.readWord, byteAddr_of_aligned a h]

theorem encodes_lw (rt base : RegNum) (offset : BitVec 16) :
    Encodes (.lw rt offset base) (0b100011#6 ++ base ++ rt ++ offset) := by
  refine ⟨rfl, ?_⟩
  change decode (formatI 0b100011#6 base rt offset) = _
  simp [decode]

theorem encodes_sw (rt base : RegNum) (offset : BitVec 16) :
    Encodes (.sw rt offset base) (0b101011#6 ++ base ++ rt ++ offset) := by
  refine ⟨rfl, ?_⟩
  change decode (formatI 0b101011#6 base rt offset) = _
  simp [decode]

/-- LW of an aligned admitted address. -/
theorem exec_lw_of_inData (rt base : RegNum) (offset : BitVec 16) (s : State) (a : Word)
    (he : effectiveAddress offset base s = a) (ha : aligned a = true) (hd : s.inData a = true) :
    exec (.lw rt offset base) s = .next ((s.setX rt (s.word a)).advance .none) := by
  subst he
  exact (exec_eq_next (.lw rt offset base) s _).mpr ⟨⟨ha, hd⟩, rfl⟩

/-- SW to an aligned admitted address. -/
theorem exec_sw_of_inData (rt base : RegNum) (offset : BitVec 16) (s : State) (a : Word)
    (he : effectiveAddress offset base s = a) (ha : aligned a = true) (hd : s.inData a = true) :
    exec (.sw rt offset base) s = .next ((s.setWord a (s.x rt)).advance .none) := by
  subst he
  exact (exec_eq_next (.sw rt offset base) s _).mpr ⟨⟨ha, hd⟩, rfl⟩

/-- What an instruction does that writes one register and moves on. -/
theorem onlyWrites_setX_advance (rd : RegNum) (v : Word) (s : State) :
    OnlyWrites rd v s ((s.setX rd v).advance .none) :=
  ⟨fun r => s.setX_x rd r v, ⟨rfl, rfl⟩, fun _ => rfl, ⟨rfl, rfl⟩, rfl, rfl⟩

/-- Settles O32: LW writes its register and nothing else, with the word its four bytes make. -/
theorem lwLoadsTheAddressedWord : Obligations.LwLoadsTheAddressedWord := by
  intro rt base offset s a he ha4 hd
  have ha := (aligned_iff a).mpr ha4
  refine ⟨encodes_lw rt base offset, _, exec_lw_of_inData rt base offset s a he ha hd, ?_⟩
  rw [← word_eq_of_aligned s a ha]
  exact onlyWrites_setX_advance rt (s.word a) s

/-- Settles O33: the bytes of the stored word are read back as that word, and a store of an aligned word changes
no byte outside it. -/
theorem swStoresOneWord : Obligations.SwStoresOneWord := by
  intro rt base offset s a he ha4 hd
  have ha := (aligned_iff a).mpr ha4
  refine ⟨encodes_sw rt base offset, _, exec_sw_of_inData rt base offset s a he ha hd, ?_,
    fun b hb => ?_, fun _ => rfl, ⟨rfl, rfl⟩, ⟨rfl, rfl⟩, rfl, rfl⟩
  · exact (word_eq_of_aligned (s.setWord a (s.x rt)) a ha).symm.trans (s.word_setWord a (s.x rt))
  · exact Memory.read_writeWord_outside _ s.mem a (s.x rt) b ha hb

/-- Settles O36: the store leaves the base register and the regions, so the load goes to the same address. -/
theorem loadAfterStoreReturnsTheValue : Obligations.LoadAfterStoreReturnsTheValue := by
  intro rt r base offset s ha hd
  obtain ⟨a, he⟩ : ∃ a, effectiveAddress offset base s = a := ⟨_, rfl⟩
  rw [he] at ha hd
  refine ⟨_, _, exec_sw_of_inData rt base offset s a he ha hd,
    exec_lw_of_inData r base offset _ a he ha hd, fun q => ?_⟩
  rw [State.advance_x, State.setX_x, State.advance_word, State.word_setWord]
  rfl

/-! ### Where an access stops (R43, R48, R78) -/

theorem aligned_eq_false_iff (a : Word) : aligned a = false ↔ a.toNat % 4 ≠ 0 := by
  rw [Ne, ← aligned_iff, Bool.not_eq_true]

/-- The model's record of an exception is the statements' (R187). -/
theorem trapped_eq (e : Exc) (v : Option Word) (s : State) :
    trapped e v s = .trap ⟨e, s, s.pc, s.inDelaySlot, v⟩ := by
  rw [trapped, Fault.trap.injEq, Trap.mk.injEq]
  simp [State.inDelaySlot, bne, beq_eq_decide]

/-- A step at a misaligned `pc` (R43). -/
theorem step_of_misaligned (s : State) (h : aligned s.pc = false) :
    step s = .fault (trapped .addressError (some s.pc) s) := by
  rw [step, fetchThen, if_pos h, raise_eq_fault, trapped_eq]

/-- Settles O34: alignment is the first check of LW, SW and the fetch. -/
theorem misalignedAccessRaisesAddressError : Obligations.MisalignedAccessRaisesAddressError := by
  rintro rt base offset s a rfl
  simp only [← aligned_eq_false_iff]
  refine ⟨fun ha => ⟨?_, ?_⟩, step_of_misaligned s⟩
  · exact (loadWord_eq_fault rt _ s _).mpr (.inl ⟨ha, trapped_eq _ _ s⟩)
  · exact (storeWord_eq_fault _ (s.x rt) s _).mpr (.inl ⟨ha, trapped_eq _ _ s⟩)

/-- Settles O35: admission is checked next, and CodeRegion and DataRegion are disjoint. -/
theorem accessOutsideDataRegionIsNotAdmitted : Obligations.AccessOutsideDataRegionIsNotAdmitted := by
  rintro rt base offset s a rfl ha
  rw [← aligned_iff] at ha
  refine ⟨s.not_inData_of_inCode _, fun hd => ⟨?_, ?_⟩⟩
  · exact (loadWord_eq_fault rt _ s _).mpr (.inr ⟨ha, hd, rfl⟩)
  · exact (storeWord_eq_fault _ (s.x rt) s _).mpr (.inr ⟨ha, hd, rfl⟩)

/-- Settles O41: with `pc` aligned the fetch is checked for admission, then the word for being an instruction. -/
theorem unfetchableOrInvalidWordStops : Obligations.UnfetchableOrInvalidWordStops := by
  intro s hpc
  have ha : aligned s.pc = true := (aligned_iff s.pc).mpr hpc
  rw [wordAtPc_eq_fetch s ha]
  refine ⟨fun hout => ?_, fun hcode hdec => ?_⟩
  · simp [step, fetchThen, ha, hout]
  · simp [step, fetchThen, ha, hcode, hdec]

end Sys2Proof.Proofs
end

section
/-! PROOFS. The encoding: a word and the fields of its format, decode and encode against each other, and the opcode
table. The statements of 30_encoding.md. -/

namespace Sys2Proof.Proofs

open Sys2Proof Sys2Proof.Machine Sys2Proof.Claims

/-! ### A word is known by its fields (R61, R62) -/

theorem formatR_eq {w : Word} {a b c d : BitVec 5} {fn : BitVec 6} (hop : fieldOpcode w = 0b000000#6)
    (hrs : fieldRs w = a) (hrt : fieldRt w = b) (hrd : fieldRd w = c) (hsa : fieldSa w = d)
    (hfn : fieldFunct w = fn) : formatR a b c d fn = w := by
  rw [← hrs, ← hrt, ← hrd, ← hsa, ← hfn, formatR_fields w hop]

theorem formatI_eq {w : Word} {op : BitVec 6} {a b : BitVec 5} {imm : BitVec 16} (hop : fieldOpcode w = op)
    (hrs : fieldRs w = a) (hrt : fieldRt w = b) (himm : fieldImm w = imm) : formatI op a b imm = w := by
  rw [← hop, ← hrs, ← hrt, ← himm, formatI_fields]

theorem formatJ_eq {w : Word} {op : BitVec 6} (hop : fieldOpcode w = op) : formatJ op (fieldIndex w) = w := by
  rw [← hop, formatJ_fields]

/-! ### Decode after encode (R63 to R65) -/

/-- Settles O1: each format keeps the fields put into it, so the decoder reads back the opcode, the function code, the
fixed zeros and the operands. -/
theorem decodeInvertsEncode : Obligations.DecodeInvertsEncode := by
  intro i hwf
  cases i with
  | nop | ssnop => exact absurd hwf (by decide)
  | j | jal | beq | bne | blez | bgtz | addi | lui | lw | sw => simp [encode, decode, ifZero]
  | _ => simp [encode, decode, decodeSpecial, ifZero]

/-- The word of an instruction encodes it. -/
theorem encodes_encode {i : Instr} (hwf : i.wellFormed = true) : Encodes i (encode i) :=
  ⟨rfl, decodeInvertsEncode i hwf⟩

/-- Settles O50: each word is the instruction's format R, written out. -/
theorem logicalEncodingsPlaceTheirFields : Obligations.LogicalEncodingsPlaceTheirFields :=
  fun _ _ _ => ⟨encodes_encode rfl, encodes_encode rfl, encodes_encode rfl⟩

/-! ### Encode after decode (R63 to R65, R77) -/

/-- An answer of the decoder for `w`: Invalid, or a well-formed instruction whose word is `w`. -/
def AnswersFor (w : Word) (o : Option Instr) : Prop := ∀ i, o = some i → i.wellFormed = true ∧ encode i = w

theorem AnswersFor.none (w : Word) : AnswersFor w none := fun _ h => nomatch h

theorem AnswersFor.some {w : Word} {i : Instr} (hwf : i.wellFormed = true) (he : encode i = w) :
    AnswersFor w (some i) := by
  rintro _ ⟨⟩
  exact ⟨hwf, he⟩

/-- A row with fixed-zero fields: its instruction has to encode to `w` only where they are zero. -/
theorem AnswersFor.ifZero {w : Word} {zeros : Bool} {i : Instr} (hwf : i.wellFormed = true)
    (he : zeros = true → encode i = w) : AnswersFor w (ifZero zeros i) := by
  intro j h
  obtain ⟨hz, rfl⟩ := (ifZero_eq_some zeros i j).mp h
  exact ⟨hwf, he hz⟩

/-- The answers under SPECIAL, by function code. -/
theorem decodeSpecial_answersFor (w : Word) (hop : fieldOpcode w = 0b000000#6) :
    AnswersFor w (decodeSpecial w) := by
  unfold decodeSpecial
  split
  -- SLL
  next hfn => exact .ifZero rfl fun hz => formatR_eq hop (eq_of_beq hz) rfl rfl rfl hfn
  -- SRL and ROTR, told apart by bits 25:21
  next hfn =>
    split
    next hrs => exact .some rfl (formatR_eq hop hrs rfl rfl rfl hfn)
    next => exact .ifZero rfl fun hz => formatR_eq hop (eq_of_beq hz) rfl rfl rfl hfn
  -- JR
  next hfn =>
    refine .ifZero rfl fun hz => ?_
    obtain ⟨⟨hrt, hrd⟩, hsa⟩ := by simpa using hz
    exact formatR_eq hop rfl hrt hrd hsa hfn
  -- SYSCALL
  next hfn => exact .some rfl (formatSyscall_fields w hop hfn)
  -- MFHI, MFLO
  iterate 2
    next hfn =>
      refine .ifZero rfl fun hz => ?_
      obtain ⟨⟨hrs, hrt⟩, hsa⟩ := by simpa using hz
      exact formatR_eq hop hrs hrt rfl hsa hfn
  -- MULT, DIV
  iterate 2
    next hfn =>
      refine .ifZero rfl fun hz => ?_
      obtain ⟨hrd, hsa⟩ := by simpa using hz
      exact formatR_eq hop rfl rfl hrd hsa hfn
  -- ADD, SUB, AND, OR, XOR, SLT
  iterate 6
    next hfn => exact .ifZero rfl fun hz => formatR_eq hop rfl rfl rfl (eq_of_beq hz) hfn
  next => exact .none w

/-- The decoder's answers, by major opcode. -/
theorem decode_answersFor (w : Word) : AnswersFor w (decode w) := by
  unfold decode
  split
  next hop => exact decodeSpecial_answersFor w hop
  -- J, JAL
  iterate 2
    next hop => exact .some rfl (formatJ_eq hop)
  -- BEQ, BNE
  iterate 2
    next hop => exact .some rfl (formatI_eq hop rfl rfl rfl)
  -- BLEZ, BGTZ
  iterate 2
    next hop => exact .ifZero rfl fun hz => formatI_eq hop rfl (eq_of_beq hz) rfl
  -- ADDI
  next hop => exact .some rfl (formatI_eq hop rfl rfl rfl)
  -- LUI
  next hop => exact .ifZero rfl fun hz => formatI_eq hop (eq_of_beq hz) rfl rfl
  -- LW, SW
  iterate 2
    next hop => exact .some rfl (formatI_eq hop rfl rfl rfl)
  next => exact .none w

/-- Settles O2: every answer of the decoder is the instruction whose format the word has. -/
theorem decodedWordIsItsEncoding : Obligations.DecodedWordIsItsEncoding := decode_answersFor

/-! ### The opcode table (R73) -/

/-- A field that lies wholly under a row's mask has the value the row's pattern gives it. -/
theorem field_eq {w m p : Word} {lo len : Nat} {v : BitVec len} (h : w &&& m = p)
    (hm : m.extractLsb' lo len = BitVec.allOnes len := by rfl) (hp : p.extractLsb' lo len = v := by rfl) :
    w.extractLsb' lo len = v := by
  rw [← hp, ← h, BitVec.extractLsb'_and, hm, BitVec.and_allOnes]

/-- A word of a row is the word of an instruction of its mnemonic: the fields under the mask are the row's, the others
are the operands. -/
theorem exists_encode_of_row (w : Word) : ∀ r ∈ opcodeTable, w &&& r.mask = r.pattern →
    ∃ i : Instr, i.wellFormed = true ∧ encode i = w ∧ i.mnemonic = r.mnemonic := by
  simp only [opcodeTable, List.cons_append, List.nil_append, List.forall_mem_cons]
  exact ⟨fun h => ⟨.add _ _ _, rfl, formatR_eq (field_eq h) rfl rfl rfl (field_eq h) (field_eq h), rfl⟩,
    fun h => ⟨.addi _ _ _, rfl, formatI_eq (field_eq h) rfl rfl rfl, rfl⟩,
    fun h => ⟨.and _ _ _, rfl, formatR_eq (field_eq h) rfl rfl rfl (field_eq h) (field_eq h), rfl⟩,
    fun h => ⟨.beq _ _ _, rfl, formatI_eq (field_eq h) rfl rfl rfl, rfl⟩,
    fun h => ⟨.bgtz _ _, rfl, formatI_eq (field_eq h) rfl (field_eq h) rfl, rfl⟩,
    fun h => ⟨.blez _ _, rfl, formatI_eq (field_eq h) rfl (field_eq h) rfl, rfl⟩,
    fun h => ⟨.bne _ _ _, rfl, formatI_eq (field_eq h) rfl rfl rfl, rfl⟩,
    fun h => ⟨.div _ _, rfl, formatR_eq (field_eq h) rfl rfl (field_eq h) (field_eq h) (field_eq h), rfl⟩,
    fun h => ⟨.j _, rfl, formatJ_eq (field_eq h), rfl⟩,
    fun h => ⟨.jal _, rfl, formatJ_eq (field_eq h), rfl⟩,
    fun h => ⟨.jr _, rfl, formatR_eq (field_eq h) rfl (field_eq h) (field_eq h) (field_eq h) (field_eq h), rfl⟩,
    fun h => ⟨.lui _ _, rfl, formatI_eq (field_eq h) (field_eq h) rfl rfl, rfl⟩,
    fun h => ⟨.lw _ _ _, rfl, formatI_eq (field_eq h) rfl rfl rfl, rfl⟩,
    fun h => ⟨.mfhi _, rfl, formatR_eq (field_eq h) (field_eq h) (field_eq h) rfl (field_eq h) (field_eq h), rfl⟩,
    fun h => ⟨.mflo _, rfl, formatR_eq (field_eq h) (field_eq h) (field_eq h) rfl (field_eq h) (field_eq h), rfl⟩,
    fun h => ⟨.mult _ _, rfl, formatR_eq (field_eq h) rfl rfl (field_eq h) (field_eq h) (field_eq h), rfl⟩,
    fun h => ⟨.or _ _ _, rfl, formatR_eq (field_eq h) rfl rfl rfl (field_eq h) (field_eq h), rfl⟩,
    fun h => ⟨.rotr _ _ _, rfl, formatR_eq (field_eq h) (field_eq h) rfl rfl rfl (field_eq h), rfl⟩,
    fun h => ⟨.sll _ _ _, rfl, formatR_eq (field_eq h) (field_eq h) rfl rfl rfl (field_eq h), rfl⟩,
    fun h => ⟨.slt _ _ _, rfl, formatR_eq (field_eq h) rfl rfl rfl (field_eq h) (field_eq h), rfl⟩,
    fun h => ⟨.srl _ _ _, rfl, formatR_eq (field_eq h) (field_eq h) rfl rfl rfl (field_eq h), rfl⟩,
    fun h => ⟨.sub _ _ _, rfl, formatR_eq (field_eq h) rfl rfl rfl (field_eq h) (field_eq h), rfl⟩,
    fun h => ⟨.sw _ _ _, rfl, formatI_eq (field_eq h) rfl rfl rfl, rfl⟩,
    fun h => ⟨.syscall _, rfl, formatSyscall_fields w (field_eq h) (field_eq h), rfl⟩,
    fun h => ⟨.xor _ _ _, rfl, formatR_eq (field_eq h) rfl rfl rfl (field_eq h) (field_eq h), rfl⟩,
    fun _ hr => nomatch hr⟩

/-- The per-instruction laws, over every instruction. -/
theorem encodingInRow : (i : Instr) → Laws.EncodingInRow.Statement i
  | .add rd rs rt => Laws.EncodingInRow.add rd rs rt
  | .addi rt rs imm => Laws.EncodingInRow.addi rt rs imm
  | .and rd rs rt => Laws.EncodingInRow.and rd rs rt
  | .beq rs rt off => Laws.EncodingInRow.beq rs rt off
  | .bgtz rs off => Laws.EncodingInRow.bgtz rs off
  | .blez rs off => Laws.EncodingInRow.blez rs off
  | .bne rs rt off => Laws.EncodingInRow.bne rs rt off
  | .div rs rt => Laws.EncodingInRow.div rs rt
  | .j index => Laws.EncodingInRow.j index
  | .jal index => Laws.EncodingInRow.jal index
  | .jr rs => Laws.EncodingInRow.jr rs
  | .lui rt imm => Laws.EncodingInRow.lui rt imm
  | .lw rt off base => Laws.EncodingInRow.lw rt off base
  | .mfhi rd => Laws.EncodingInRow.mfhi rd
  | .mflo rd => Laws.EncodingInRow.mflo rd
  | .mult rs rt => Laws.EncodingInRow.mult rs rt
  | .or rd rs rt => Laws.EncodingInRow.or rd rs rt
  | .rotr rd rt sa => Laws.EncodingInRow.rotr rd rt sa
  | .sll rd rt sa => Laws.EncodingInRow.sll rd rt sa
  | .slt rd rs rt => Laws.EncodingInRow.slt rd rs rt
  | .srl rd rt sa => Laws.EncodingInRow.srl rd rt sa
  | .sub rd rs rt => Laws.EncodingInRow.sub rd rs rt
  | .sw rt off base => Laws.EncodingInRow.sw rt off base
  | .syscall code => Laws.EncodingInRow.syscall code
  | .xor rd rs rt => Laws.EncodingInRow.xor rd rs rt
  | .nop => Laws.EncodingInRow.nop
  | .ssnop => Laws.EncodingInRow.ssnop

/-- Only NOP and SSNOP bear a mnemonic of the rows that take no part in decoding. -/
theorem mnemonic_ne_of_mem_aliasTable {i : Instr} (hwf : i.wellFormed = true) :
    ∀ r ∈ aliasTable, r.mnemonic ≠ i.mnemonic := by
  cases i with
  | nop | ssnop => exact absurd hwf (by decide)
  | _ => simp [aliasTable, Instr.mnemonic]

/-- Every word of a decoded instruction is in a row of the table. -/
theorem exists_row_of_encode (i : Instr) (hwf : i.wellFormed = true) :
    ∃ r ∈ opcodeTable, encode i &&& r.mask = r.pattern := by
  obtain ⟨r, hr, hmn, ha⟩ := encodingInRow i
  refine ⟨r, (List.mem_append.mp hr).resolve_right fun hr' => ?_, beq_iff_eq.mp ha⟩
  exact mnemonic_ne_of_mem_aliasTable hwf r hr' hmn

/-- Settles O3: a row's words are the words of its instructions, which decode back to them (O1); and a word that
decodes is such a word (O2), so that it stands in a row. -/
theorem decodeFollowsOpcodeTable : Obligations.DecodeFollowsOpcodeTable := by
  refine fun w => ⟨fun r hr h => ?_, fun hno => Option.eq_none_iff_forall_ne_some.mpr fun i hi => ?_⟩
  · obtain ⟨i, hwf, rfl, hmn⟩ := exists_encode_of_row w r hr h
    exact ⟨i, decodeInvertsEncode i hwf, hmn⟩
  · obtain ⟨hwf, rfl⟩ := decodedWordIsItsEncoding w i hi
    obtain ⟨r, hr, ha⟩ := exists_row_of_encode i hwf
    exact hno r hr ha

theorem opcodeTable_mnemonics_nodup : (opcodeTable.map OpcodeRow.mnemonic).Nodup := by decide

/-- Settles O4: the decoder answers one instruction, so that both rows bear its mnemonic. -/
theorem noWordMatchesTwoRows : Obligations.NoWordMatchesTwoRows := by
  intro w r q hr hq hwr hwq
  obtain ⟨hrow, -⟩ := decodeFollowsOpcodeTable w
  obtain ⟨i, hi, hir⟩ := hrow r hr hwr
  obtain ⟨j, hj, hjq⟩ := hrow q hq hwq
  obtain rfl : i = j := Option.some.inj (hi.symm.trans hj)
  exact List.inj_on_of_nodup_map opcodeTable_mnemonics_nodup hr hq (hir.symm.trans hjq)

/-! ### The offset of a branch (R68, R120) -/

theorem branchOffset_toInt (offset : BitVec 16) : (branchOffset offset).toInt = 4 * offset.toInt := by
  rw [branchOffset, BitVec.toInt_signExtend_of_le (by decide), BitVec.toInt_append_zero]
  rfl

/-- Settles O6: two zero bits below the field make it four times as large, and the extension keeps the sign. -/
theorem branchOffsetIsFourTimesField : Obligations.BranchOffsetIsFourTimesField := by
  intro pc offset
  have hlo := offset.le_toInt
  have hhi := offset.toInt_lt
  rw [branchOffset_toInt]
  refine ⟨rfl, ?_, ?_, rfl⟩ <;> omega

end Sys2Proof.Proofs
end

section
/-! PROOFS. The statements of 40_arithmetic.md on ADD, SUB and SLT. ADD and SUB are one argument: a 33-bit result that
is an exact integer is written when the integer fits a word, and raises Integer Overflow when it does not (R100). -/

namespace Sys2Proof.Proofs

open Sys2Proof Sys2Proof.Machine Sys2Proof.Claims

/-! ### A 33-bit result, written or trapped (R100) -/

theorem overflows_eq_false_iff_fitsWord (temp : BitVec 33) : overflows temp = false ↔ FitsWord temp.toInt :=
  overflows_eq_false_iff temp

/-- The tail of ADD, ADDI and SUB, for a 33-bit result that is the integer `n`. -/
theorem writeUnless_overflows {temp : BitVec 33} {n : Int} (hn : temp.toInt = n) (rd : RegNum) (s : State) :
    (FitsWord n → ∃ t, writeUnless (overflows temp) rd (low32 temp) s = .next t ∧
      OnlyWrites rd (BitVec.ofInt 32 n) s t) ∧
    (¬ FitsWord n →
      writeUnless (overflows temp) rd (low32 temp) s = .fault (trapped .integerOverflow none s)) := by
  subst hn
  rw [← overflows_eq_false_iff_fitsWord, Bool.not_eq_false, ← low32_eq_ofInt]
  refine ⟨fun hfits => ⟨_, (writeUnless_eq_next _ rd _ s _).mpr ⟨hfits, rfl⟩, ?_⟩, fun hover => ?_⟩
  · exact onlyWrites_setX_advance rd (low32 temp) s
  · exact (writeUnless_eq_fault _ rd _ s _).mpr ⟨hover, trapped_eq _ _ s⟩

theorem wide_fitsWord (v : Word) : FitsWord (wide v).toInt :=
  (wide_toInt v).symm ▸ word_toInt_bounds v

/-- The sum of two words is exact in 33 bits (R100). -/
theorem wide_add_wide_toInt (a b : Word) : (wide a + wide b).toInt = a.toInt + b.toInt := by
  rw [wide_add_toInt _ _ (wide_fitsWord a) (wide_fitsWord b), wide_toInt, wide_toInt]

/-- The difference of two words is exact in 33 bits (R100). -/
theorem wide_sub_wide_toInt (a b : Word) : (wide a - wide b).toInt = a.toInt - b.toInt := by
  rw [wide_sub_toInt _ _ (wide_fitsWord a) (wide_fitsWord b), wide_toInt, wide_toInt]

/-- Settles O8: ADD hands its 33-bit sum, which is exact, to `writeUnless`. -/
theorem addWritesExactSumOrTraps : Obligations.AddWritesExactSumOrTraps :=
  fun rd rs rt s => ⟨encodes_encode rfl, writeUnless_overflows (wide_add_wide_toInt (s.x rs) (s.x rt)) rd s⟩

/-- Settles O10: SUB hands its 33-bit difference, which is exact, to `writeUnless`. -/
theorem subWritesExactDifferenceOrTraps : Obligations.SubWritesExactDifferenceOrTraps :=
  fun rd rs rt s => ⟨encodes_encode rfl, writeUnless_overflows (wide_sub_wide_toInt (s.x rs) (s.x rt)) rd s⟩

/-! ### The signed comparison (R104) -/

theorem signedLess_iff (a b : Word) : signedLess a b = true ↔ a.toInt < b.toInt := decide_eq_true_iff

/-- Settles O12: SLT has no check that could stop it, and its condition is the order of the signed values. -/
theorem sltComparesSigned : Obligations.SltComparesSigned := by
  intro rd rs rt s
  refine ⟨encodes_encode rfl, _, (exec_eq_next (.slt rd rs rt) s _).mpr ⟨trivial, rfl⟩, ?_⟩
  simp only [← signedLess_iff]
  exact onlyWrites_setX_advance rd _ s

end Sys2Proof.Proofs
end

section
/-! PROOFS. The statements of 41_logical.md: an instruction that always completes and writes one register, and the bits
of what AND, OR and XOR write. -/

namespace Sys2Proof.Proofs

open Sys2Proof Sys2Proof.Machine Sys2Proof.Claims

/-- An instruction whose effect is one register changes nothing else, unless it branches (R23, R31). -/
theorem exists_next_onlyWrites {i : Instr} {s : State} {rd : RegNum} {v : Word} (hc : Completes i s)
    (he : effect i s = .register rd v) (hd : newDelay i s = .none) :
    ∃ t, exec i s = .next t ∧ OnlyWrites rd v s t := by
  have hnext : exec i s = .next (((effect i s).apply s).advance (newDelay i s)) :=
    (exec_eq_next i s _).mpr ⟨hc, rfl⟩
  rw [he, hd] at hnext
  exact ⟨_, hnext, onlyWrites_setX_advance rd v s⟩

/-- Settles O13: none of the three has a check that could stop it, and each writes the word that its operation makes
bit by bit. -/
theorem logicalOperationsAreBitwise : Obligations.LogicalOperationsAreBitwise := by
  intro rd rs rt s
  obtain ⟨tAnd, hAnd, wAnd⟩ := exists_next_onlyWrites (i := .and rd rs rt) (s := s) trivial rfl rfl
  obtain ⟨tOr, hOr, wOr⟩ := exists_next_onlyWrites (i := .or rd rs rt) (s := s) trivial rfl rfl
  obtain ⟨tXor, hXor, wXor⟩ := exists_next_onlyWrites (i := .xor rd rs rt) (s := s) trivial rfl rfl
  exact ⟨⟨tAnd, _, hAnd, wAnd, fun _ _ => BitVec.getLsbD_and⟩,
    ⟨tOr, _, hOr, wOr, fun _ _ => BitVec.getLsbD_or⟩,
    ⟨tXor, _, hXor, wXor, fun _ _ => BitVec.getLsbD_xor⟩⟩

end Sys2Proof.Proofs
end

section
/-! PROOFS. What an instruction, and a step, ends with when it does not complete, said once; then the statements of
42_branch.md. -/

namespace Sys2Proof.Proofs

open Sys2Proof Sys2Proof.Machine Sys2Proof.Claims

/-! ### The instructions by the fault they end with -/

/-- The fault of an access that is not made: alignment is checked before admission (R151). -/
def accessStop (kind : AccessKind) (a : Word) (s : State) : Fault :=
  if aligned a = false then trapped .addressError (some a) s else .accessNotAdmitted kind a s

/-- The fault an instruction ends with when it does not complete; `none` if nothing can stop it. -/
def stop : Instr → State → Option Fault
  | .add _ _ _, s | .addi _ _ _, s | .sub _ _ _, s => some (trapped .integerOverflow none s)
  | .lw _ offset base, s => some (accessStop .load (effectiveAddress offset base s) s)
  | .sw _ offset base, s => some (accessStop .store (effectiveAddress offset base s) s)
  | .beq _ _ _, s | .bgtz _ _, s | .blez _ _, s | .bne _ _ _, s | .j _, s | .jal _, s | .jr _, s =>
    some (.unpredictable .branchInDelaySlot s)
  | .syscall _, s => some (trapped .systemCall none s)
  | _, _ => none

/-- The two ways an access of data is not made, as one. -/
theorem access_not_made_iff (kind : AccessKind) (a : Word) (s : State) (f : Fault) :
    (aligned a = false ∧ f = .trap ⟨.addressError, s, s.pc, s.inDelaySlot, some a⟩ ∨
      aligned a = true ∧ s.inData a = false ∧ f = .accessNotAdmitted kind a s) ↔
      ¬ (aligned a = true ∧ s.inData a = true) ∧ accessStop kind a s = f := by
  cases ha : aligned a <;> simp [accessStop, trapped_eq, ha, eq_comm (b := f)]

/-- Everything an instruction that ends with a fault does. -/
theorem exec_eq_fault (i : Instr) (s : State) (f : Fault) :
    exec i s = .fault f ↔ ¬ Completes i s ∧ stop i s = some f := by
  cases i with
  | add | addi | sub =>
    simp [exec, execAdd, execAddi, execSub, writeUnless_eq_fault, Completes, stop, trapped_eq, eq_comm (b := f)]
  | lw => simp only [exec, execLw, loadWord_eq_fault, access_not_made_iff, Completes, stop, Option.some.injEq]
  | sw => simp only [exec, execSw, storeWord_eq_fault, access_not_made_iff, Completes, stop, Option.some.injEq]
  | beq | bgtz | blez | bne =>
    simp [exec, execBeq, execBgtz, execBlez, execBne, branchOrJump_eq_fault, State.inDelaySlot_iff, Completes,
      stop, eq_comm (b := f)]
  | j | jal | jr =>
    simp [exec, execJ, execJal, execJr, branchOrJump_eq_fault, State.inDelaySlot_iff, Completes, stop, eq_comm (b := f)]
  | syscall => simp [exec, execSyscall, raise_eq_fault, Completes, stop, trapped_eq, eq_comm (b := f)]
  | lui | slt | and | or | xor =>
    simp [exec, execLui, execSlt, execAnd, execOr, execXor, Completes]
  | rotr | sll | srl | nop | ssnop =>
    simp [exec, execRotr, execSll, execSrl, execNop, execSsnop, Completes]
  | mfhi | mflo | mult => simp [exec, execMfhi, execMflo, execMult, Completes]
  | div rs rt =>
    by_cases h : s.x rt = 0#32 <;> simp [exec, execDiv, Completes, h]

/-- Everything a step that ends with a fault does (R190). -/
theorem step_eq_fault (s : State) (f : Fault) :
    step s = .fault f ↔
      (aligned s.pc = false ∧ f = trapped .addressError (some s.pc) s) ∨
      (aligned s.pc = true ∧ s.inCode s.pc = false ∧ f = .accessNotAdmitted .fetch s.pc s) ∨
      (aligned s.pc = true ∧ s.inCode s.pc = true ∧
        ∃ i, decode (wordAtPc s) = some i ∧ exec i s = .fault f) := by
  cases ha : aligned s.pc with
  | false => simp [step_of_misaligned s ha, eq_comm (b := f)]
  | true =>
    obtain ⟨hout, hinvalid⟩ := unfetchableOrInvalidWordStops s ((aligned_iff s.pc).mp ha)
    cases hcode : s.inCode s.pc with
    | false => simp [hout hcode, eq_comm (b := f)]
    | true =>
      cases hdec : decode (wordAtPc s) with
      | none => simp [hinvalid hcode hdec]
      | some i => simp [stepRunsTheDecodedInstruction s i ((aligned_iff s.pc).mp ha) hcode hdec]

/-! ### The record of an exception (R187) -/

theorem accessStop_eq_trap {kind : AccessKind} {a : Word} {s : State} {tr : Trap}
    (h : accessStop kind a s = .trap tr) : .trap tr = trapped .addressError (some a) s := by
  unfold accessStop at h
  split at h
  · exact h.symm
  · cases h

/-- An instruction that raises an exception records the state it was run in. -/
theorem exec_trap_eq_trapped {i : Instr} {s : State} {tr : Trap} (h : exec i s = .fault (.trap tr)) :
    ∃ e v, .trap tr = trapped e v s := by
  obtain ⟨-, hstop⟩ := (exec_eq_fault i s _).mp h
  cases i with
  | lw | sw => exact ⟨_, _, accessStop_eq_trap (Option.some.inj hstop)⟩
  | add | addi | sub | syscall => exact ⟨_, _, (Option.some.inj hstop).symm⟩
  | _ => cases hstop

/-- A step that raises an exception records the state before it. -/
theorem step_trap_eq_trapped {s : State} {tr : Trap} (h : step s = .fault (.trap tr)) :
    ∃ e v, .trap tr = trapped e v s := by
  obtain ⟨-, htr⟩ | ⟨-, -, hacc⟩ | ⟨-, -, i, -, hexec⟩ := (step_eq_fault s _).mp h
  · exact ⟨_, _, htr⟩
  · cases hacc
  · exact exec_trap_eq_trapped hexec

/-- An exception in a delay slot is reported as one. -/
theorem inDelaySlot_of_step_trap {s : State} {tr : Trap} (h : step s = .fault (.trap tr)) (hd : s.delay ≠ .none) :
    tr.inDelaySlot = true := by
  obtain ⟨e, v, htr⟩ := step_trap_eq_trapped h
  cases htr
  exact decide_eq_true hd

/-! ### Branches and jumps in a delay slot (R122) -/

theorem completes_iff_delay_eq_none {i : Instr} (hi : isBranchOrJump i = true) (s : State) :
    Completes i s ↔ s.delay = .none := by
  cases i with
  | beq | bgtz | blez | bne | j | jal | jr => rfl
  | _ => cases hi

theorem stop_of_isBranchOrJump {i : Instr} (hi : isBranchOrJump i = true) (s : State) :
    stop i s = some (.unpredictable .branchInDelaySlot s) := by
  cases i with
  | beq | bgtz | blez | bne | j | jal | jr => rfl
  | _ => cases hi

theorem accessStop_ne_unpredictable (kind : AccessKind) (a : Word) (s s' : State) (r : UnpredictableReason) :
    accessStop kind a s ≠ .unpredictable r s' := by
  unfold accessStop; split <;> exact Fault.noConfusion

theorem isBranchOrJump_of_stop_unpredictable {i : Instr} {s s' : State} {r : UnpredictableReason}
    (h : stop i s = some (.unpredictable r s')) : isBranchOrJump i = true := by
  cases i with
  | beq | bgtz | blez | bne | j | jal | jr => rfl
  | lw | sw => exact absurd (Option.some.inj h) (accessStop_ne_unpredictable _ _ s s' r)
  | _ => cases h

/-- The one fault of a branch or jump is that of standing in a delay slot. -/
theorem exec_eq_fault_of_isBranchOrJump {i : Instr} (hi : isBranchOrJump i = true) (s : State) (f : Fault) :
    exec i s = .fault f ↔ s.delay ≠ .none ∧ f = .unpredictable .branchInDelaySlot s := by
  rw [exec_eq_fault, completes_iff_delay_eq_none hi, stop_of_isBranchOrJump hi, Option.some.injEq, eq_comm (a := f)]

/-- Settles O30: only the branches and jumps have a check that ends as UNPREDICTABLE, and it is their only one. -/
theorem branchInDelaySlotIsUnpredictable : Obligations.BranchInDelaySlotIsUnpredictable := by
  intro i s s' r
  have hclass : exec i s = .fault (.unpredictable r s') → isBranchOrJump i = true := fun h =>
    isBranchOrJump_of_stop_unpredictable ((exec_eq_fault i s _).mp h).2
  rw [← and_iff_right_of_imp hclass]
  refine and_congr_right fun hi => ?_
  rw [exec_eq_fault_of_isBranchOrJump hi, Fault.unpredictable.injEq]

/-! ### The four branches (R120, R121, R124) -/

/-- An instruction that writes nothing moves `pc` and `delay` on and changes nothing else. -/
theorem onlyMovesOn_of_exec {i : Instr} {s t : State} (he : effect i s = .nothing) (h : exec i s = .next t) :
    OnlyMovesOn (newDelay i s) s t := by
  obtain ⟨-, rfl⟩ := (exec_eq_next i s t).mp h
  rw [he]
  exact ⟨fun _ => rfl, ⟨rfl, rfl⟩, fun _ => rfl, ⟨rfl, rfl⟩, rfl, rfl⟩

theorem exists_next_of_isBranchOrJump {i : Instr} {s : State} (hi : isBranchOrJump i = true) (hd : s.delay = .none) :
    ∃ t, exec i s = .next t :=
  ⟨_, (exec_eq_next i s _).mpr ⟨(completes_iff_delay_eq_none hi s).mpr hd, rfl⟩⟩

/-- Outside a delay slot a branch or jump that writes nothing sets `new_delay` only. -/
theorem exists_next_onlyMovesOn {i : Instr} {s : State} (hi : isBranchOrJump i = true)
    (he : effect i s = .nothing) (hd : s.delay = .none) :
    ∃ t, exec i s = .next t ∧ OnlyMovesOn (newDelay i s) s t :=
  (exists_next_of_isBranchOrJump hi hd).imp fun _ ht => ⟨ht, onlyMovesOn_of_exec he ht⟩

/-- The model's branch target is the statements': the 18-bit offset as a number of bytes (R68, R120). -/
theorem branchTarget_eq_branchTo (s : State) (offset : BitVec 16) :
    branchTarget s.pc offset = branchTo s offset := by
  rw [branchTarget, branchTo, ← branchOffset_toInt, BitVec.ofInt_toInt]

theorem positive_iff (a : Word) : positive a = true ↔ 0 < a.toInt := decide_eq_true_iff

/-- Settles O25: BGTZ writes nothing, and its condition is the sign of the register's signed value. -/
theorem bgtzBranchesWhenPositive : Obligations.BgtzBranchesWhenPositive := by
  intro rs offset s hd
  refine ⟨encodes_encode rfl, ?_⟩
  simp only [← positive_iff, ← branchTarget_eq_branchTo]
  exact exists_next_onlyMovesOn (i := .bgtz rs offset) rfl rfl hd

/-- Settles O31: a branch has no effect and no fault but that of a delay slot, and the `new_delay` it leaves is what the
record of an exception in the next step reports. -/
theorem branchesWriteNothingAndNeverTrap : Obligations.BranchesWriteNothingAndNeverTrap := by
  intro rs rt offset s i hi
  obtain ⟨hclass, heffect⟩ : isBranchOrJump i = true ∧ effect i s = .nothing := by
    rcases hi with rfl | rfl | rfl | rfl <;> exact ⟨rfl, rfl⟩
  refine ⟨exists_next_of_isBranchOrJump hclass, fun tr htr => ?_, fun t ht => ?_⟩
  · obtain ⟨-, hf⟩ := (exec_eq_fault_of_isBranchOrJump hclass s _).mp htr
    cases hf
  · obtain ⟨hx, hhilo, hmem, -, -, hdelay⟩ := onlyMovesOn_of_exec heffect ht
    have hslot : t.delay ≠ .none := by simp [hdelay, newDelay_eq_none_iff, hclass]
    exact ⟨hx, hhilo, hmem, fun tr htr => inDelaySlot_of_step_trap htr hslot⟩

end Sys2Proof.Proofs
end

section
/-! PROOFS. The statements of 43_muldiv.md on MULT and on the moves from HI and LO: the product fits in 64 bits, so its
two words lose nothing of it. -/

namespace Sys2Proof.Proofs

open Sys2Proof Sys2Proof.Machine Sys2Proof.Claims

/-! ### HI and LO as one number -/

/-- A pair of words as a signed number: the high word counts with its sign, the low word without. -/
theorem toInt_append_word (hi lo : Word) : (hi ++ lo : BitVec 64).toInt = hi.toInt * 2 ^ 32 + lo.toNat := by
  rw [Int.mul_comm]
  exact BitVec.toInt_append

theorem high_append_low (p : BitVec 64) : p.extractLsb' 32 32 ++ p.extractLsb' 0 32 = p := by
  rw [BitVec.extractLsb'_append_extractLsb'_eq_extractLsb' (by decide), BitVec.extractLsb'_eq_self]

/-- The product of two words is at most 2^62 in size, so that 64 bits hold it (R134). -/
theorem product_toInt (a b : Word) : (product a b).toInt = a.toInt * b.toInt := by
  have hlo : -2 ^ 62 ≤ a.toInt * b.toInt := BitVec.le_toInt_mul_toInt
  have hhi : a.toInt * b.toInt ≤ 2 ^ 62 := BitVec.toInt_mul_toInt_le
  exact BitVec.toInt_ofInt_eq_self (by decide) (by omega) (by omega)

/-! ### MULT -/

/-- An instruction whose effect is on HI and LO sets them and changes nothing else (R24, R31). -/
theorem exists_next_onlyWritesHiLo {i : Instr} {s : State} {hi lo : Word} (hc : Completes i s)
    (he : effect i s = .hiLo hi lo) (hd : newDelay i s = .none) :
    ∃ t, exec i s = .next t ∧ t.hi = hi ∧ t.lo = lo ∧ OnlyWritesHiLo s t := by
  have hnext : exec i s = .next (((effect i s).apply s).advance (newDelay i s)) :=
    (exec_eq_next i s _).mpr ⟨hc, rfl⟩
  rw [he, hd] at hnext
  exact ⟨_, hnext, rfl, rfl, fun _ => rfl, fun _ => rfl, ⟨rfl, rfl⟩, rfl, rfl⟩

/-- Settles O18: HI and LO are the two halves of a product that is exact in 64 bits. -/
theorem multLeavesExactProduct : Obligations.MultLeavesExactProduct := by
  intro rs rt s
  obtain ⟨t, hexec, hhi, hlo, honly⟩ :=
    exists_next_onlyWritesHiLo (i := .mult rs rt) (s := s) trivial rfl rfl
  refine ⟨encodes_encode rfl, t, hexec, ?_, honly⟩
  rw [hhi, hlo, high_append_low, product_toInt]

/-! ### The moves from HI and LO -/

/-- Settles O21: neither move has a check that could stop it, and each writes its register only. -/
theorem movesCopyHiAndLo : Obligations.MovesCopyHiAndLo := fun rd s =>
  ⟨encodes_encode rfl, encodes_encode rfl,
    exists_next_onlyWrites (i := .mfhi rd) (s := s) trivial rfl rfl,
    exists_next_onlyWrites (i := .mflo rd) (s := s) trivial rfl rfl⟩

/-- A register other than 0 reads what was written to it. -/
theorem x_eq_of_onlyWrites {rd : RegNum} {v : Word} {s t : State} (hrd : rd ≠ 0#5) (h : OnlyWrites rd v s t) :
    t.x rd = v := by
  obtain ⟨hwritten, -⟩ := h
  rw [hwritten rd, if_pos ⟨rfl, hrd⟩]

/-- Settles O22: the moves copy the two words that MULT leaves (O21), and those are the product (O18). -/
theorem moveAfterMultReadsProduct : Obligations.MoveAfterMultReadsProduct := by
  intro rs rt rd s hrd
  obtain ⟨-, t, hmult, hproduct, -⟩ := multLeavesExactProduct rs rt s
  obtain ⟨-, -, ⟨v, hmfhi, hv⟩, u, hmflo, hu⟩ := movesCopyHiAndLo rd t
  refine ⟨t, u, v, hmult, hmflo, hmfhi, ?_⟩
  rw [x_eq_of_onlyWrites hrd hv, x_eq_of_onlyWrites hrd hu, ← toInt_append_word, hproduct]

end Sys2Proof.Proofs
end

section
/-! PROOFS. The statement of 44_jump.md on a misaligned JR target: it is pending over the delay slot and checked at its
fetch. -/

namespace Sys2Proof.Proofs

open Sys2Proof Sys2Proof.Machine Sys2Proof.Claims

/-- The step of a delay slot ends the transfer pending over it, since a branch or jump does not complete there. -/
theorem pc_and_delay_of_step_in_slot {t u : State} (hslot : t.delay ≠ .none) (h : step t = .next u) :
    u.pc = t.nextPc ∧ u.delay = .none := by
  obtain ⟨i, -, hbranch, hother⟩ := everyStepFollowsTheDelayDiscipline t u h
  have hi : isBranchOrJump i = false := Bool.eq_false_iff.mpr fun hi => hslot (hbranch hi).1
  obtain ⟨hdelay, hpc⟩ := hother hi
  exact ⟨hpc, hdelay⟩

/-- Settles O29: JR leaves its register's value as the pending target, the delay slot moves `pc` there with no transfer
left, and alignment is the first check of the next step. -/
theorem misalignedJrTargetTrapsAtItsFetch : Obligations.MisalignedJrTargetTrapsAtItsFetch := by
  intro rs s hd
  obtain ⟨t, hjr, -, -, -, -, -, hpending⟩ := exists_next_onlyMovesOn (i := .jr rs) rfl rfl hd
  refine ⟨t, hjr, fun u hslot => ?_⟩
  have htarget : t.delay = .taken (s.x rs) := hpending
  obtain ⟨hpc, hdelay⟩ := pc_and_delay_of_step_in_slot (by simp [htarget]) hslot
  rw [State.nextPc_of_taken t _ htarget] at hpc
  refine ⟨hpc, hdelay, fun hmisaligned => ?_⟩
  rw [← hpc, ← aligned_eq_false_iff] at hmisaligned
  rw [step_of_misaligned u hmisaligned, trapped_eq, hpc, (State.inDelaySlot_eq_false_iff u).mpr hdelay]

end Sys2Proof.Proofs
end

section
/-! PROOFS. The statement of 45_loadstore.md on the effective address: `BitVec.ofInt 32` takes a number modulo 2^32,
so it may be applied to each summand. -/

namespace Sys2Proof.Proofs

open Sys2Proof Sys2Proof.Machine

/-- Settles O7: sign extension is the word of the offset's signed value, and a word is that of its own. -/
theorem effectiveAddressIsSignedSum : Obligations.EffectiveAddressIsSignedSum := by
  intro offset base s
  calc effectiveAddress offset base s
      = offset.signExtend 32 + s.x base := rfl
    _ = BitVec.ofInt 32 offset.toInt + BitVec.ofInt 32 (s.x base).toInt := by
        rw [BitVec.signExtend, BitVec.ofInt_toInt]
    _ = BitVec.ofInt 32 (offset.toInt + (s.x base).toInt) := (BitVec.ofInt_add _ _).symm

end Sys2Proof.Proofs
end

section
/-! PROOFS. The statements of 46_shift.md on SLL and SRL, and on NOP and SSNOP, which are SLLs into register 0: bit by
bit, a shift reads its source at a distance `sa`, and a zero where the source has no bit. -/

namespace Sys2Proof.Proofs

open Sys2Proof Sys2Proof.Machine Sys2Proof.Claims

/-! ### The bits of a shifted word -/

/-- Below `sa` there is no source bit, and the bits of a word shifted past bit 31 are lost (R163). -/
theorem shiftLeft_getLsbD (v : Word) (sa : BitVec 5) {i : Nat} (hi : i < 32) :
    (shiftLeft v sa).getLsbD i = (decide (sa.toNat ≤ i) && v.getLsbD (i - sa.toNat)) := by
  rw [shiftLeft, BitVec.getLsbD_shiftLeft, decide_eq_true hi, Bool.true_and, ← decide_not]
  simp only [Nat.not_lt]

/-- From `32 - sa` upward there is no source bit: the sign bit is not copied (R164). -/
theorem shiftRight_getLsbD (v : Word) (sa : BitVec 5) (i : Nat) :
    (shiftRight v sa).getLsbD i = (decide (i + sa.toNat < 32) && v.getLsbD (i + sa.toNat)) := by
  rw [shiftRight, BitVec.getLsbD_ushiftRight, Nat.add_comm sa.toNat i]
  by_cases h : i + sa.toNat < 32
  · rw [decide_eq_true h, Bool.true_and]
  · rw [decide_eq_false h, Bool.false_and, BitVec.getLsbD_of_ge _ _ (Nat.not_lt.mp h)]

/-! ### SLL and SRL -/

/-- Settles O14: SLL has no check that could stop it, and writes its source shifted left. -/
theorem sllShiftsInZeros : Obligations.SllShiftsInZeros := by
  intro rd rt sa s
  obtain ⟨t, hexec, hwrites⟩ := exists_next_onlyWrites (i := .sll rd rt sa) (s := s) trivial rfl rfl
  exact ⟨encodes_encode rfl, t, _, hexec, hwrites, fun _ => shiftLeft_getLsbD (s.x rt) sa⟩

/-- Settles O15: SRL has no check that could stop it, and writes its source shifted right. -/
theorem srlShiftsInZeros : Obligations.SrlShiftsInZeros := by
  intro rd rt sa s
  obtain ⟨t, hexec, hwrites⟩ := exists_next_onlyWrites (i := .srl rd rt sa) (s := s) trivial rfl rfl
  exact ⟨encodes_encode rfl, t, _, hexec, hwrites, fun i _ => shiftRight_getLsbD (s.x rt) sa i⟩

/-! ### NOP and SSNOP (R160, R161) -/

theorem encode_nop : encode .nop = encode (.sll 0#5 0#5 0#5) := by decide

theorem encode_ssnop : encode .ssnop = encode (.sll 0#5 0#5 1#5) := by decide

theorem exec_nop (s : State) : exec .nop s = exec (.sll 0#5 0#5 0#5) s := rfl

theorem exec_ssnop (s : State) : exec .ssnop s = exec (.sll 0#5 0#5 1#5) s := rfl

/-- An instruction that completes without an effect only moves on. -/
theorem exists_next_onlyMovesOn_of_completes {i : Instr} {s : State} (hc : Completes i s)
    (he : effect i s = .nothing) : ∃ t, exec i s = .next t ∧ OnlyMovesOn (newDelay i s) s t :=
  have hnext := (exec_eq_next i s _).mpr ⟨hc, rfl⟩
  ⟨_, hnext, onlyMovesOn_of_exec he hnext⟩

/-- Settles O17: each idiom has the word of its SLL, which the decoder reads back as that SLL, and the meaning of its
SLL, whose write to register 0 is discarded. -/
theorem nopAndSsnopAreSll : Obligations.NopAndSsnopAreSll := by
  have hnop : decode (encode .nop) = some (.sll 0#5 0#5 0#5) :=
    encode_nop ▸ decodeInvertsEncode (.sll 0#5 0#5 0#5) rfl
  have hssnop : decode (encode .ssnop) = some (.sll 0#5 0#5 1#5) :=
    encode_ssnop ▸ decodeInvertsEncode (.sll 0#5 0#5 1#5) rfl
  refine ⟨rfl, hnop, rfl, hssnop, fun s => ⟨exec_nop s, exec_ssnop s, ?_, ?_⟩⟩
  · exact exists_next_onlyMovesOn_of_completes (i := .nop) trivial rfl
  · exact exists_next_onlyMovesOn_of_completes (i := .ssnop) trivial rfl

end Sys2Proof.Proofs
end

section
/-! PROOFS. The statement of 47_system.md: SYSCALL never completes, and System Call is the only fault it ends with. -/

namespace Sys2Proof.Proofs

open Sys2Proof Sys2Proof.Machine Sys2Proof.Claims

theorem not_completes_syscall (code : BitVec 20) (s : State) : ¬ Completes (.syscall code) s := id

theorem stop_syscall (code : BitVec 20) (s : State) :
    stop (.syscall code) s = some (trapped .systemCall none s) := rfl

/-- Settles O37: SYSCALL completes in no state, and its fault depends neither on the code nor on a check. -/
theorem syscallAlwaysRaisesSystemCall : Obligations.SyscallAlwaysRaisesSystemCall := fun code s =>
  ⟨encodes_encode rfl, (exec_eq_fault _ s _).mpr ⟨not_completes_syscall code s, stop_syscall code s⟩⟩

end Sys2Proof.Proofs
end

section
/-! PROOFS. The statements of 60_exceptions.md: when a step refuses, what the record of every stop holds, and which
instruction raises which exception. -/

namespace Sys2Proof.Proofs

open Sys2Proof Sys2Proof.Machine Sys2Proof.Claims

/-! ### Refusals (R78) -/

/-- An instruction that no check can stop completes in every state. -/
theorem completes_of_stop_eq_none {i : Instr} {s : State} (h : stop i s = none) : Completes i s := by
  cases i with
  | add | addi | sub | lw | sw | syscall | beq | bgtz | blez | bne | j | jal | jr => cases h
  | _ => trivial

theorem exists_next_of_completes {i : Instr} {s : State} (hc : Completes i s) : ∃ t, exec i s = .next t :=
  ⟨_, (exec_eq_next i s _).mpr ⟨hc, rfl⟩⟩

/-- Every instruction has a meaning: it answers a next state or a fault. -/
theorem exec_ne_refused (i : Instr) (s : State) (r : Refusal) : exec i s ≠ .refused r := by
  intro h
  by_cases hc : Completes i s
  · obtain ⟨t, ht⟩ := exists_next_of_completes hc
    cases h.symm.trans ht
  · obtain ⟨f, hf⟩ := Option.ne_none_iff_exists'.mp fun hnone => hc (completes_of_stop_eq_none hnone)
    cases h.symm.trans ((exec_eq_fault i s f).mpr ⟨hc, hf⟩)

/-- The one refusal of a step: the word fetched is no instruction, and the state is as before. -/
theorem eq_notInScope_of_step_eq_refused {s : State} {r : Refusal} (h : step s = .refused r) :
    r = .notInScope (wordAtPc s) s := by
  cases ha : aligned s.pc with
  | false => cases h.symm.trans (step_of_misaligned s ha)
  | true =>
    have hpc := (aligned_iff s.pc).mp ha
    obtain ⟨hout, hinvalid⟩ := unfetchableOrInvalidWordStops s hpc
    cases hcode : s.inCode s.pc with
    | false => cases h.symm.trans (hout hcode)
    | true =>
      cases hdec : decode (wordAtPc s) with
      | none => cases h.symm.trans (hinvalid hcode hdec); rfl
      | some i =>
        rw [stepRunsTheDecodedInstruction s i hpc hcode hdec] at h
        exact absurd h (exec_ne_refused i s r)

/-! ### The record of a stop (R186, R187) -/

/-- The fault carries the state `s`, whole; a trap also its `pc`, whether it stood in a delay slot, and an offending
address exactly for Address Error. -/
def RecordsState (s : State) : Fault → Prop
  | .trap tr => tr.state = s ∧ tr.pc = s.pc ∧ tr.inDelaySlot = decide (s.delay ≠ .none) ∧
      (tr.vaddr.isSome = true ↔ tr.exc = .addressError)
  | .unpredictable _ s' => s' = s
  | .accessNotAdmitted _ _ s' => s' = s

theorem recordsState_trapped {e : Exc} {v : Option Word} (s : State)
    (h : v.isSome = true ↔ e = .addressError) : RecordsState s (trapped e v s) :=
  ⟨rfl, rfl, rfl, h⟩

theorem recordsState_accessStop (kind : AccessKind) (a : Word) (s : State) :
    RecordsState s (accessStop kind a s) := by
  unfold accessStop
  split
  · exact recordsState_trapped s (by simp)
  · rfl

/-- An instruction's fault records the state it was run in. -/
theorem recordsState_of_exec {i : Instr} {s : State} {f : Fault} (h : exec i s = .fault f) : RecordsState s f := by
  obtain ⟨-, hstop⟩ := (exec_eq_fault i s f).mp h
  cases i with
  | add | addi | sub | syscall => cases hstop; exact recordsState_trapped s (by simp)
  | lw | sw => cases hstop; exact recordsState_accessStop _ _ s
  | beq | bgtz | blez | bne | j | jal | jr => cases hstop; rfl
  | _ => cases hstop

/-- A step's fault records the state before it. -/
theorem recordsState_of_step {s : State} {f : Fault} (h : step s = .fault f) : RecordsState s f := by
  obtain ⟨-, rfl⟩ | ⟨-, -, rfl⟩ | ⟨-, -, i, -, hexec⟩ := (step_eq_fault s f).mp h
  · exact recordsState_trapped s (by simp)
  · rfl
  · exact recordsState_of_exec hexec

/-- Settles O38: whatever fault a step ends with records the state before it, and so does its one refusal. -/
theorem stoppedStepRecordsTheStateBefore : Obligations.StoppedStepRecordsTheStateBefore := fun _ =>
  ⟨fun _ => recordsState_of_step, fun _ _ => recordsState_of_step, fun _ _ _ => recordsState_of_step,
    fun _ => eq_notInScope_of_step_eq_refused⟩

/-! ### Exceptions and instructions (R181, R182) -/

/-- Settles O39: each instruction has one fault to end with, and where that is a trap the instruction fixes its
exception. -/
theorem eachExceptionHasItsInstructions : Obligations.EachExceptionHasItsInstructions := by
  intro i s tr h
  obtain ⟨-, hstop⟩ := (exec_eq_fault i s _).mp h
  cases i with
  | add rd rs rt => cases hstop; exact .inl ⟨rfl, .inl ⟨rd, rs, rt, rfl⟩⟩
  | addi rt rs imm => cases hstop; exact .inl ⟨rfl, .inr (.inl ⟨rt, rs, imm, rfl⟩)⟩
  | sub rd rs rt => cases hstop; exact .inl ⟨rfl, .inr (.inr ⟨rd, rs, rt, rfl⟩)⟩
  | lw rt offset base =>
    cases accessStop_eq_trap (Option.some.inj hstop)
    exact .inr (.inl ⟨rfl, .inl ⟨rt, offset, base, rfl⟩⟩)
  | sw rt offset base =>
    cases accessStop_eq_trap (Option.some.inj hstop)
    exact .inr (.inl ⟨rfl, .inr ⟨rt, offset, base, rfl⟩⟩)
  | syscall code => cases hstop; exact .inr (.inr ⟨rfl, code, rfl⟩)
  | _ => cases hstop

/-- Settles O23: none of the three has a check that could stop it. -/
theorem sltMultDivNeverTrap : Obligations.SltMultDivNeverTrap := fun rd rs rt _ =>
  ⟨exists_next_of_completes (i := .slt rd rs rt) trivial, exists_next_of_completes (i := .mult rs rt) trivial,
    exists_next_of_completes (i := .div rs rt) trivial⟩

end Sys2Proof.Proofs
end

section
/-! PROOFS. The remaining statements of 40_arithmetic.md, on ADDI and LUI. -/

namespace Sys2Proof.Proofs

open Sys2Proof Sys2Proof.Machine Sys2Proof.Claims

/-- The sum of a word and a signed immediate is exact in 33 bits (R100, R102). -/
theorem wide_add_wideImmediate_toInt (a : Word) (imm : BitVec 16) :
    (wide a + wideImmediate imm).toInt = a.toInt + imm.toInt := by
  have himm : FitsWord (wideImmediate imm).toInt := (wideImmediate_toInt imm).symm ▸ immediate_toInt_bounds imm
  rw [wide_add_toInt _ _ (wide_fitsWord a) himm, wide_toInt, wideImmediate_toInt]

/-- Settles O9: ADDI hands its 33-bit sum, which is exact, to `writeUnless`. -/
theorem addiWritesExactSumOrTraps : Obligations.AddiWritesExactSumOrTraps :=
  fun rt rs imm s => ⟨encodes_encode rfl, writeUnless_overflows (wide_add_wideImmediate_toInt (s.x rs) imm) rt s⟩

/-- A number written as two fields, high and low. -/
theorem toNat_append_eq_mul_add {m n : Nat} (x : BitVec m) (y : BitVec n) :
    (x ++ y).toNat = x.toNat * 2 ^ n + y.toNat := by
  rw [BitVec.toNat_append, ← Nat.shiftLeft_add_eq_or_of_lt y.isLt, Nat.shiftLeft_eq]

theorem upperImmediate_toNat (imm : BitVec 16) : (upperImmediate imm).toNat = imm.toNat * 2 ^ 16 := by
  rw [upperImmediate, toNat_append_eq_mul_add, BitVec.toNat_zero, Nat.add_zero]

/-- Settles O11: LUI has no check that could stop it, and sixteen zero bits below the immediate multiply it by 2^16. -/
theorem luiLoadsUpperHalf : Obligations.LuiLoadsUpperHalf := by
  intro rt imm s
  obtain ⟨t, hexec, hwrites⟩ := exists_next_onlyWrites (i := .lui rt imm) (s := s) trivial rfl rfl
  exact ⟨encodes_encode rfl, t, _, hexec, upperImmediate_toNat imm, hwrites⟩

end Sys2Proof.Proofs
end

section
/-! PROOFS. The remaining statement of 46_shift.md, on ROTR. -/

namespace Sys2Proof.Proofs

open Sys2Proof Sys2Proof.Machine Sys2Proof.Claims

/-- No bit of the source is lost: bit numbers past 31 go round to 0 (R162). -/
theorem rotateRight_getLsbD (v : Word) (sa : BitVec 5) {i : Nat} (hi : i < 32) :
    (rotateRight v sa).getLsbD i = v.getLsbD ((i + sa.toNat) % 32) := by
  have hsa : sa.toNat < 32 := sa.isLt
  rw [rotateRight, BitVec.getLsbD_rotateRight, Nat.mod_eq_of_lt hsa, Bool.cond_decide]
  split
  next hlow => rw [Nat.mod_eq_of_lt (by omega), Nat.add_comm]
  next hround =>
    rw [decide_eq_true hi, Bool.true_and, Nat.mod_eq_sub_mod (by omega), Nat.mod_eq_of_lt (by omega)]
    exact congrArg v.getLsbD (by omega)

/-- Settles O16: ROTR is implemented on this hardware, so that nothing stops it, and it writes its source rotated. -/
theorem rotrRotatesEveryBit : Obligations.RotrRotatesEveryBit := by
  intro rd rt sa s
  obtain ⟨t, hexec, hwrites⟩ := exists_next_onlyWrites (i := .rotr rd rt sa) (s := s) trivial rfl rfl
  exact ⟨encodes_encode rfl, t, _, hexec, hwrites, fun _ => rotateRight_getLsbD (s.x rt) sa⟩

end Sys2Proof.Proofs
end

section
/-! PROOFS. The remaining statements of 43_muldiv.md, on DIV: the model's quotient and remainder are the signed division
of bit vectors, which is that of the integers unless the quotient is 2^31. -/

namespace Sys2Proof.Proofs

open Sys2Proof Sys2Proof.Machine Sys2Proof.Claims

/-! ### Quotient and remainder (R130) -/

theorem quotient_eq_sdiv (a b : Word) : quotient a b = a.sdiv b := by
  apply BitVec.eq_of_toInt_eq
  rw [quotient, BitVec.toInt_ofInt, BitVec.toInt_sdiv]

theorem remainder_eq_srem (a b : Word) : remainder a b = a.srem b := by
  rw [remainder, ← BitVec.toInt_srem, BitVec.ofInt_toInt]

/-- Only -2^31 / -1 has a quotient that a word does not hold. -/
theorem quotient_toInt {a b : Word} (h : ¬ (a = 0x80000000#32 ∧ b = 0xFFFFFFFF#32)) :
    (quotient a b).toInt = a.toInt.tdiv b.toInt := by
  rw [quotient_eq_sdiv]
  exact BitVec.toInt_sdiv_of_ne_or_ne a b (not_and_or.mp h)

theorem remainder_toInt (a b : Word) : (remainder a b).toInt = a.toInt.tmod b.toInt := by
  rw [remainder_eq_srem, BitVec.toInt_srem]

theorem natAbs_tmod_lt (a : Int) {b : Int} (hb : b ≠ 0) : (a.tmod b).natAbs < b.natAbs := by
  rw [Int.natAbs_tmod]
  exact Nat.mod_lt _ (Int.natAbs_pos.mpr hb)

theorem tmod_nonpos {a : Int} (b : Int) (ha : a ≤ 0) : a.tmod b ≤ 0 := by
  have h := Int.tmod_nonneg b (Int.neg_nonneg_of_nonpos ha)
  rw [Int.neg_tmod] at h
  omega

/-! ### DIV -/

/-- Settles O19: HI and LO are the words of the integers' remainder and quotient, and -2^31 / -1 is computed. -/
theorem divLeavesQuotientAndRemainder : Obligations.DivLeavesQuotientAndRemainder := by
  intro rs rt s
  refine ⟨encodes_encode rfl, fun hrt => ?_⟩
  obtain ⟨t, hexec, hhi, hlo, honly⟩ :=
    exists_next_onlyWritesHiLo (i := .div rs rt) (s := s) trivial (if_neg hrt) rfl
  refine ⟨t, hexec, honly, ?_⟩
  rw [hhi, hlo]
  split
  next hover =>
    obtain ⟨ha, hb⟩ := hover
    rw [ha, hb]
    decide
  next hexact =>
    have hb : (s.x rt).toInt ≠ 0 := fun h0 => hrt (BitVec.eq_of_toInt_eq h0)
    rw [quotient_toInt hexact, remainder_toInt]
    exact ⟨(Int.mul_tdiv_add_tmod _ _).symm, natAbs_tmod_lt _ hb, Int.tmod_nonneg _, tmod_nonpos _⟩

/-- Settles O20: by a divisor of zero DIV's one write is the draw, which moves the counter on. -/
theorem divByZeroCompletesWithFreeValues : Obligations.DivByZeroCompletesWithFreeValues := by
  intro rs rt s hrt
  have hdraw : effect (.div rs rt) s = .draw := if_pos hrt
  have hexec : exec (.div rs rt) s = .next (((effect (.div rs rt) s).apply s).advance .none) :=
    (exec_eq_next (.div rs rt) s _).mpr ⟨trivial, rfl⟩
  rw [hdraw] at hexec
  exact ⟨_, hexec, rfl, rfl, rfl, rfl, fun _ => rfl, fun _ => rfl, rfl, rfl⟩

end Sys2Proof.Proofs
end

section
/-! PROOFS. The remaining statements of 42_branch.md, on BEQ, BNE and BLEZ. -/

namespace Sys2Proof.Proofs

open Sys2Proof Sys2Proof.Machine Sys2Proof.Claims

theorem branchDelay_not (c : Bool) (target : Word) :
    branchDelay (!c) target = if c = true then .notTaken else .taken target := by
  cases c <;> rfl

/-- Settles O24: neither branch writes anything, and their conditions are equality and its negation. -/
theorem beqBneBranchOnEquality : Obligations.BeqBneBranchOnEquality := by
  intro rs rt offset s hd
  refine ⟨encodes_encode rfl, encodes_encode rfl, ?_⟩
  simp only [← equal_iff, ← branchTarget_eq_branchTo, ← branchDelay_not]
  exact ⟨exists_next_onlyMovesOn (i := .beq rs rt offset) rfl rfl hd,
    exists_next_onlyMovesOn (i := .bne rs rt offset) rfl rfl hd⟩

/-- A signed value is not positive when its sign bit is set or it is zero (R127). -/
theorem nonPositive_iff (a : Word) : nonPositive a = true ↔ a.getLsbD 31 = true ∨ a = 0#32 := by
  have hsign : a.getLsbD 31 = true ↔ a.toInt < 0 := by
    rw [← decide_eq_true_iff (p := a.toInt < 0), ← BitVec.msb_eq_toInt, BitVec.msb_eq_getLsbD_last]
  have hzero : a = 0#32 ↔ a.toInt = 0 := BitVec.toInt_inj.symm
  rw [nonPositive, decide_eq_true_iff, hsign, hzero, Int.le_iff_lt_or_eq]

/-- Settles O26: BLEZ writes nothing, and its condition is the sign bit or zero. -/
theorem blezBranchesWhenNotPositive : Obligations.BlezBranchesWhenNotPositive := by
  intro rs offset s hd
  refine ⟨encodes_encode rfl, ?_⟩
  simp only [← nonPositive_iff, ← branchTarget_eq_branchTo]
  exact exists_next_onlyMovesOn (i := .blez rs offset) rfl rfl hd

end Sys2Proof.Proofs
end

section
/-! PROOFS. The remaining statements of 44_jump.md: the target of J and JAL as a number, JAL's link, and JR. -/

namespace Sys2Proof.Proofs

open Sys2Proof Sys2Proof.Machine Sys2Proof.Claims

/-- The top four bits of the delay slot's address, then the index, then two zero bits (R69). -/
theorem jumpTarget_toNat (pc : Word) (index : BitVec 26) :
    (jumpTarget pc index).toNat = (pc + 4#32).toNat / 2 ^ 28 * 2 ^ 28 + 4 * index.toNat := by
  have hregion : ((pc + 4#32).extractLsb' 28 4).toNat = (pc + 4#32).toNat / 2 ^ 28 := by
    rw [BitVec.extractLsb'_toNat, Nat.shiftRight_eq_div_pow]
    exact Nat.mod_eq_of_lt (by have := (pc + 4#32).isLt; omega)
  have happend : (jumpTarget pc index).toNat =
      (((pc + 4#32).extractLsb' 28 4).toNat * 2 ^ 26 + index.toNat) * 2 ^ 2 :=
    (toNat_append_eq_mul_add _ 0#2).trans
      (congrArg (· * 2 ^ 2) (toNat_append_eq_mul_add ((pc + 4#32).extractLsb' 28 4) index))
  rw [happend, hregion]
  omega

/-- JAL outside a delay slot: its link is the one thing it writes (R141). -/
theorem exec_jal_of_delay_eq_none (index : BitVec 26) {s : State} (hd : s.delay = .none) :
    exec (.jal index) s =
      .next ((s.setX 31#5 (linkAddress s.pc)).advance (.taken (jumpTarget s.pc index))) :=
  (exec_eq_next (.jal index) s _).mpr ⟨hd, rfl⟩

/-- Settles O27: J and JAL leave the same pending target, and JAL's link is an ordinary register write. -/
theorem jumpsGoWithinTheRegion : Obligations.JumpsGoWithinTheRegion := fun index s hd =>
  ⟨encodes_encode rfl, encodes_encode rfl, jumpTarget s.pc index, jumpTarget_toNat s.pc index,
    exists_next_onlyMovesOn (i := .j index) rfl rfl hd,
    _, exec_jal_of_delay_eq_none index hd, fun r => s.setX_x 31#5 r (linkAddress s.pc), ⟨rfl, rfl⟩, fun _ => rfl,
    ⟨rfl, rfl⟩, rfl, rfl⟩

/-- Settles O28: JR writes nothing, and its pending target is the register as it stands. -/
theorem jrJumpsToWholeRegister : Obligations.JrJumpsToWholeRegister := fun rs _ hd =>
  ⟨encodes_encode rfl, exists_next_onlyMovesOn (i := .jr rs) rfl rfl hd⟩

end Sys2Proof.Proofs
end

section
/-! PROOFS. The words of the spec's worked examples, each the encoding of its instruction. -/

namespace Sys2Proof.Proofs

open Sys2Proof Sys2Proof.Machine Sys2Proof.Claims

/-- Settles O5: each word is its instruction's encoding, which decodes back (O1); in the last one bits 10:6 are those
of the hint, which has to be zero. -/
theorem workedExampleWordsDecode : Obligations.WorkedExampleWordsDecode :=
  ⟨decodeInvertsEncode (.add 3 1 2) rfl, decodeInvertsEncode (.addi 2 1 0xFFFF) rfl,
    decodeInvertsEncode (.and 3 1 2) rfl, decodeInvertsEncode (.bne 1 0 0xFFFE) rfl,
    decodeInvertsEncode (.div 1 2) rfl, decodeInvertsEncode (.jal 0x0100040) rfl,
    decodeInvertsEncode (.lw 2 4 1) rfl, decodeInvertsEncode (.sw 2 8 1) rfl,
    decodeInvertsEncode (.rotr 3 2 4) rfl, decodeInvertsEncode (.srl 3 2 4) rfl,
    decodeInvertsEncode (.syscall 0xFFFFF) rfl, by decide⟩

end Sys2Proof.Proofs
end
